-- ==== Sys2Proof/Config.lean ====
section
/-! DEFINITION. The implementation parameters of 00_scope.md rule R5, under the spec's names. -/

namespace Sys2Proof.Config

/-- `S_W`: width of a PCM sample (R5, fixed by the document). -/
@[simp] def sW : Nat := 16

/-- `S_MIN`: the negative full-scale sample value, the negative rail (R5, decision D1). -/
@[simp] def sMin : Int := -32768

/-- `S_MAX`: the positive full-scale sample value (R5, decision D1). -/
@[simp] def sMax : Int := 32767

/-- `OSR`: output bits per sample, which is also `WORD_W` (R5, fixed). -/
@[simp] def osr : Nat := 32

/-- `ACC_W`: default width of the accumulator (R5, decision D2; at least 16). -/
@[simp] def accW : Nat := 32

/-- `CLK_W`: default width of the sample clock and of a target (R5, decision D3; at least 2). -/
@[simp] def clkW : Nat := 32

/-- `CUR_W`: default width of the two cursors (R5, decision D4; at least 5). -/
@[simp] def curW : Nat := 32

/-- `CB_W`: default width of a callback tag (R5, decision D5; at least 1). -/
@[simp] def cbW : Nat := 16

/-- `CMD_W`: width of a command word (R5, decision D9). -/
@[simp] def cmdW : Nat := 64

/-- `QCAP`: slots of the action queue (R5, fixed by the document). -/
@[simp] def qcap : Nat := 16

/-- `QIDX_W`: width of a slot index, `log2 QCAP` (R5). -/
@[simp] def qidxW : Nat := 4

/-- `QMASK`: the index mask `QCAP - 1` (R5). -/
@[simp] def qmask : Nat := 15

/-- `RAMP_LEN`: samples in a ramp (R5, fixed by the document). -/
@[simp] def rampLen : Nat := 2048

/-- `RAMP_STEP`: amplitude increment of a ramp (R5, decision D17). -/
@[simp] def rampStep : Nat := 16

/-- `ACC_RESET`: default value of the accumulator after reset (R5, R25, decision D6; in -32767 .. 32767). -/
@[simp] def accReset : Int := 0

end Sys2Proof.Config
end

