-- ==== Sys2Proof/Word.lean ====
section
/-! DEFINITION. The words the block handles, at the default widths of 00_scope.md rule R5. Each width is
written as a numeral so that arithmetic tactics see it; Laws/State.lean shows that it is Config's. -/

namespace Sys2Proof

/-- One PCM sample, an `i16` (R5, R43): a two's-complement field, its value is `toInt`. -/
abbrev Sample := BitVec 16

/-- A sample count: the clock, a target or a delta, a `uCLK_W` (R14, R44). -/
abbrev Count := BitVec 32

/-- A callback tag, a `uCB_W` (R16, R44). -/
abbrev Tag := BitVec 16

/-- A bitstream word: the 32 output bits of one sample, the first one in bit 31 (R48, R54). -/
abbrev BitWord := BitVec 32

/-- A command word `cmd[63:0]` (R42). -/
abbrev CmdWord := BitVec 64

/-- A slot index, a `u4` (R27). -/
abbrev SlotIndex := BitVec 4

end Sys2Proof
end

