-- ==== Sys2Proof/Syntax.lean ====
section
/-! DEFINITION. The commands at level A (00_scope.md rule R2): one constructor per row of the opcode table. -/

namespace Sys2Proof

/-- A command of the block, with typed operands (30_encoding.md rule R41). Every value of every operand
field is legal (R43, R44), so a term of this type is well formed by construction. -/
inductive Instr where
  /-- `EMIT s`: encode and output one sample, then look at the queue head (R72). -/
  | emit (s : Sample)
  /-- `SCHED_ABS t, cb`: enqueue callback `cb` for the absolute sample count `t` (R65). -/
  | schedAbs (t : Count) (cb : Tag)
  /-- `SCHED_REL d, cb`: enqueue callback `cb` for `d` samples after the present clock (R66). -/
  | schedRel (d : Count) (cb : Tag)
  /-- `RET`: the running callback has returned (R77). -/
  | ret
  deriving DecidableEq, Repr

end Sys2Proof
end

