-- ==== Sys2Proof/WellFormed.lean ====
section
/-! DEFINITION. Commands as a programmer writes them (30_encoding.md rule R50): a mnemonic with integer operands,
the ranges that make such a line well formed, and its level-A command. `Instr` itself needs no check: its operand
types hold exactly the legal values. -/

namespace Sys2Proof

/-- A line of R50's assembler syntax, its operands as the integers written. -/
inductive Asm where
  | emit (s : Int)
  | schedAbs (t cb : Int)
  | schedRel (d cb : Int)
  | ret
  deriving DecidableEq, Repr

/-- `x` lies in `lo .. hi`, both ends included. -/
def inRange (lo hi x : Int) : Bool := decide (lo ≤ x) && decide (x ≤ hi)

/-- The operand ranges of R50. -/
def asmWellFormed (a : Asm) : Bool :=
  match a with
  | .emit s => inRange Config.sMin Config.sMax s
  | .schedAbs t cb => inRange 0 4294967295 t && inRange 0 65535 cb
  | .schedRel d cb => inRange 0 4294967295 d && inRange 0 65535 cb
  | .ret => true

/-- The command a line stands for: none if an operand is out of range (R50). -/
def assemble (a : Asm) : Option Instr :=
  if asmWellFormed a then
    match a with
    | .emit s => some (.emit (BitVec.ofInt 16 s))
    | .schedAbs t cb => some (.schedAbs (BitVec.ofInt 32 t) (BitVec.ofInt 16 cb))
    | .schedRel d cb => some (.schedRel (BitVec.ofInt 32 d) (BitVec.ofInt 16 cb))
    | .ret => some .ret
  else none

/-- The line that spells a command: a sample is signed, a count and a tag are unsigned (R43, R44, R50). -/
def disassemble (i : Instr) : Asm :=
  match i with
  | .emit s => .emit s.toInt
  | .schedAbs t cb => .schedAbs t.toNat cb.toNat
  | .schedRel d cb => .schedRel d.toNat cb.toNat
  | .ret => .ret

/-- The text of a line: the mnemonic and comma-separated decimal operands (R50). -/
def asmText (a : Asm) : String :=
  match a with
  | .emit s => "EMIT " ++ toString s
  | .schedAbs t cb => "SCHED_ABS " ++ toString t ++ ", " ++ toString cb
  | .schedRel d cb => "SCHED_REL " ++ toString d ++ ", " ++ toString cb
  | .ret => "RET"

end Sys2Proof
end

