-- ==== Sys2Proof/Decode.lean ====
section
/-! DEFINITION. Level B: the 64-bit command word (30_encoding.md rules R42 to R46), its total decoder, which rejects by
name, the encoder, and the (match, mask) rows of the opcode table. -/

namespace Sys2Proof

/-- Field `op = cmd[63:60]` (R42). -/
def fieldOp (w : CmdWord) : BitVec 4 := w.extractLsb' 60 4

/-- Field `z = cmd[59:48]`, zero in every command (R42). -/
def fieldZ (w : CmdWord) : BitVec 12 := w.extractLsb' 48 12

/-- Field `cb = cmd[47:32]`, the callback tag (R42). -/
def fieldCb (w : CmdWord) : Tag := w.extractLsb' 32 16

/-- Field `arg = cmd[31:0]`, the numeric operand (R42). -/
def fieldArg (w : CmdWord) : Count := w.extractLsb' 0 32

/-- `arg[31:16]`, zero in format E (R43). -/
def fieldArgHigh (w : CmdWord) : BitVec 16 := w.extractLsb' 16 16

/-- `arg[15:0]`, the sample in format E (R43). -/
def fieldSample (w : CmdWord) : Sample := w.extractLsb' 0 16

/-- Why a word is `invalid` (R46). -/
inductive Invalid where
  /-- `op = 0x0`: an all-zero word is no command. -/
  | opcodeZero
  /-- `op` in `0x5 .. 0xF`. -/
  | opcodeReserved
  /-- Some bit of `z` is set. -/
  | zNonzero
  /-- An `EMIT` word with `cb != 0`. -/
  | emitTag
  /-- An `EMIT` word with `arg[31:16] != 0`. -/
  | emitArgHigh
  /-- A `RET` word with `cb != 0` or `arg != 0`. -/
  | retOperand
  deriving DecidableEq, Repr

/-- Format E (R43). -/
def decodeE (w : CmdWord) : Except Invalid Instr :=
  if fieldCb w ≠ 0 then .error .emitTag
  else if fieldArgHigh w ≠ 0 then .error .emitArgHigh
  else .ok (.emit (fieldSample w))

/-- Format Z (R45). -/
def decodeZ (w : CmdWord) : Except Invalid Instr :=
  if fieldCb w ≠ 0 ∨ fieldArg w ≠ 0 then .error .retOperand else .ok .ret

/-- The total decoder: a command, or `invalid` with its reason (R46). -/
def decode (w : CmdWord) : Except Invalid Instr :=
  if fieldOp w = 0x0#4 then .error .opcodeZero
  else if fieldOp w ≠ 0x1#4 ∧ fieldOp w ≠ 0x2#4 ∧ fieldOp w ≠ 0x3#4 ∧ fieldOp w ≠ 0x4#4 then
    .error .opcodeReserved
  else if fieldZ w ≠ 0 then .error .zNonzero
  else if fieldOp w = 0x1#4 then decodeE w
  else if fieldOp w = 0x2#4 then .ok (.schedAbs (fieldArg w) (fieldCb w))
  else if fieldOp w = 0x3#4 then .ok (.schedRel (fieldArg w) (fieldCb w))
  else decodeZ w

/-- The four fields side by side, `op ++ z ++ cb ++ arg` (R42). -/
def layout (op : BitVec 4) (z : BitVec 12) (cb : Tag) (arg : Count) : CmdWord := op ++ z ++ cb ++ arg

/-- The word that spells a command (R43 to R45). -/
def encode (i : Instr) : CmdWord :=
  match i with
  | .emit s => layout 0x1#4 0#12 0#16 (0#16 ++ s)
  | .schedAbs t cb => layout 0x2#4 0#12 cb t
  | .schedRel d cb => layout 0x3#4 0#12 cb d
  | .ret => layout 0x4#4 0#12 0#16 0#32

/-- A row of opcode_table.json: the word spells the row's command when `w & mask = match` (R45). -/
structure OpcodeRow where
  mnemonic : String
  matchBits : CmdWord
  maskBits : CmdWord
  deriving DecidableEq, Repr

/-- Row `EMIT` (R43). -/
def rowEmit : OpcodeRow := ⟨"EMIT", 0x1000000000000000#64, 0xFFFFFFFFFFFF0000#64⟩

/-- Row `SCHED_ABS` (R44). -/
def rowSchedAbs : OpcodeRow := ⟨"SCHED_ABS", 0x2000000000000000#64, 0xFFFF000000000000#64⟩

/-- Row `SCHED_REL` (R44). -/
def rowSchedRel : OpcodeRow := ⟨"SCHED_REL", 0x3000000000000000#64, 0xFFFF000000000000#64⟩

/-- Row `RET` (R45). -/
def rowRet : OpcodeRow := ⟨"RET", 0x4000000000000000#64, 0xFFFFFFFFFFFFFFFF#64⟩

/-- The opcode table (R52). -/
def opcodeRows : List OpcodeRow := [rowEmit, rowSchedAbs, rowSchedRel, rowRet]

/-- The row of a command. -/
def rowOf (i : Instr) : OpcodeRow :=
  match i with
  | .emit _ => rowEmit
  | .schedAbs _ _ => rowSchedAbs
  | .schedRel _ _ => rowSchedRel
  | .ret => rowRet

/-- `w` spells the command of row `r` (R45). -/
abbrev spells (r : OpcodeRow) (w : CmdWord) : Prop := w &&& r.maskBits = r.matchBits

/-- The word whose low `nbits` bits are those of `w`, every bit above them 0. A command is one word of 64 bits,
numbered as the table numbers it (R6, R42); the block has no byte order (R32). -/
def tableWord (nbits w : Nat) : CmdWord := BitVec.ofNat 64 (w % 2 ^ nbits)

/-- The command the decoder reads from a word given as the opcode table numbers its bits; none where it rejects. -/
def decodeTableWord (nbits w : Nat) : Option Instr := (decode (tableWord nbits w)).toOption

end Sys2Proof
end

