-- ==== Sys2Proof/Machine/State.lean ====
section
/-! DEFINITION. The state: the block's six architectural items (10_state.md rule R11), and beside them the model's two
records of the outside, the commands waiting at the port and the output events so far. Faults and refusals. -/

namespace Sys2Proof.Machine

/-- The fire-window flag's two values (R18). -/
inductive Phase where
  /-- No callback is running: commands come from the host context (R110). -/
  | idle
  /-- A fired callback has not returned: commands come from the handler context (R110). -/
  | firing
  deriving DecidableEq, Repr

/-- A scheduled action, the contents of a written slot (R16, R49). -/
structure Action (clkW cbW : Nat) where
  target : BitVec clkW
  cb : BitVec cbW
  deriving DecidableEq, Repr

/-- The queue storage `slot[0..15]` (R27): the written slots as (index, action) pairs with the indices strictly rising.
A slot that is not listed is unwritten: it holds no value (R16). -/
abbrev Memory (clkW cbW : Nat) := List (Nat × Action clkW cbW)

/-- An output event (R48). -/
inductive Event (cbW : Nat) where
  /-- `WORD(w)`: one bitstream word handed to the sink. -/
  | word (w : BitWord)
  /-- `FIRE(cb)`: the callback `cb` is delivered to the handler. -/
  | fire (cb : BitVec cbW)
  deriving DecidableEq, Repr

/-- The block's architectural state, exactly the six items of R11, over the four widths that R5 makes parameters:
`ACC_W`, `CLK_W`, `CUR_W` and `CB_W`. -/
structure Block (accW clkW curW cbW : Nat) where
  /-- The quantization-error accumulator (R12). -/
  acc : BitVec accW
  /-- The sample clock (R14). -/
  sclk : BitVec clkW
  /-- The in cursor: actions ever accepted (R15). -/
  qin : BitVec curW
  /-- The out cursor: actions ever reclaimed (R15). -/
  qout : BitVec curW
  /-- The queue storage (R16). -/
  slots : Memory clkW cbW
  /-- Whether a fired callback has not yet returned (R18). -/
  phase : Phase
  deriving DecidableEq, Repr

/-- The block after reset with `ACC_RESET = accReset` (R5, R25, R117, U5). -/
def Block.resetWith (accW clkW curW cbW : Nat) (accReset : Int) : Block accW clkW curW cbW where
  acc := BitVec.ofInt accW accReset
  sclk := 0
  qin := 0
  qout := 0
  slots := []
  phase := .idle

/-- The block after reset at the default `ACC_RESET` (R5, R25). -/
def Block.reset (accW clkW curW cbW : Nat) : Block accW clkW curW cbW :=
  Block.resetWith accW clkW curW cbW Config.accReset

/-- What the block sees at its queue head (R72 step 4). -/
inductive HeadView (clkW cbW : Nat) where
  /-- `qin = qout`: nothing is pending. -/
  | empty
  /-- An action is counted as pending but its slot holds no value; unreachable from reset (R30). -/
  | unwritten
  /-- The oldest pending action. -/
  | pending (a : Action clkW cbW)
  deriving DecidableEq, Repr

/-- The model's state: the block at the default widths of R5, the command words that the host and handler contexts hold
ready at the command port, next first (R41), and the output trace, oldest event first (R8). R24 keeps the last two out
of the BLOCK's state: no command reads the trace. -/
structure State where
  block : Block 32 32 32 16
  port : List CmdWord
  trace : List (Event 16)
  deriving DecidableEq, Repr

/-- The machine right after reset (R25): the block's reset state, no command presented, no event produced (R117). -/
def State.reset : State where
  block := Block.reset 32 32 32 16
  port := []
  trace := []

/-- Faults of the hardware: none. A command completes or is refused, there is no third outcome (R9), and the block raises
no exception (R99). Nobody raises one, which is safe: the spec names no behaviour this leaves out. -/
inductive Fault where
  deriving DecidableEq, Repr

/-- Refusals: the spec gives the command no meaning in this state, and nothing is claimed of the run (R9). The last five
are R100's closed list. All are safe: a run that holds one can prove nothing. -/
inductive Refusal where
  /-- Raised by an arm of `exec` that has no meaning yet; safe. No arm raises it in this model. -/
  | notModelled (mnemonic : String)
  /-- `RESERVED_ENCODING`: raised by `step` on an `invalid` command word (R46); safe. -/
  | reservedEncoding
  /-- `EMIT_IN_FIRE_WINDOW`: raised by `EMIT` while a callback runs (R78); safe. -/
  | emitInFireWindow
  /-- `RET_OUTSIDE_FIRE_WINDOW`: raised by `RET` while no callback runs (R77); safe. -/
  | retOutsideFireWindow
  /-- `UNWRITTEN_SLOT`: raised by `EMIT` where its head peek meets a slot with no value, unreachable from reset (R30); safe. -/
  | unwrittenSlot
  /-- `BEEP_DOMAIN`: raised by the sequencer's model on a `BEEP` outside its domain (R87), never by a step; safe. -/
  | beepDomain
  deriving DecidableEq, Repr

end Sys2Proof.Machine
end

