-- ==== Sys2Proof/Machine/Ops.lean ====
section
/-! DEFINITION. The named operations: wrapping, the slot memory, the outputs, opening and closing the fire window, the
command port, reset, and how a meaning's result becomes the next state. Generic in the widths of R5. -/

namespace Sys2Proof.Machine

variable {accW clkW curW cbW : Nat}

/-- `wraps_N` and `wrapu_N` (R6): the `n`-bit word congruent to `x` modulo `2^n`. -/
def wrap (n : Nat) (x : Int) : BitVec n := BitVec.ofInt n x

/-- A counter goes up by one, modulo its width (R14, R15). -/
def increment {n : Nat} (c : BitVec n) : BitVec n := c + BitVec.ofNat n 1

/-- The slot a cursor designates, `c & QMASK = c[3:0]` (R28). -/
def slotIndex (c : BitVec curW) : SlotIndex := c.extractLsb' 0 4

/-- `MemRead(i, 1)`: the pair in slot `i`; none where the slot is unwritten (R27, R30). -/
def memRead (m : Memory clkW cbW) (i : SlotIndex) : Option (Action clkW cbW) :=
  match m with
  | [] => none
  | (k, a) :: rest => if k = i.toNat then some a else memRead rest i

/-- `MemWrite(i, 1, a)`: the whole pair in slot `i` is replaced (R27). -/
def memWrite (m : Memory clkW cbW) (i : SlotIndex) (a : Action clkW cbW) : Memory clkW cbW :=
  match m with
  | [] => [(i.toNat, a)]
  | (k, b) :: rest =>
    if i.toNat < k then (i.toNat, a) :: (k, b) :: rest
    else if k = i.toNat then (k, a) :: rest
    else (k, b) :: memWrite rest i a

/-- The canonical form of the slot memory: indices strictly rising, all of them below `QCAP`. An unlisted slot reads as
unwritten and every listed one holds a pair, so no entry equals what an unlisted slot reads as. -/
abbrev Memory.wf (m : Memory clkW cbW) : Prop :=
  m.Pairwise (fun c d => c.1 < d.1) ∧ ∀ c ∈ m, c.1 < Config.qcap

/-- A command's result (R9): the next block state and the output events in order, or a refusal. -/
abbrev Effect (accW clkW curW cbW : Nat) :=
  Except Refusal (Block accW clkW curW cbW × List (Event cbW))

/-- `drop` (R8): the command completes with no state change and no output event. -/
def drop (b : Block accW clkW curW cbW) : Effect accW clkW curW cbW := .ok (b, [])

/-- A second part of a command, run after a first part that completed with `r`; events in that order (R36). -/
def continueWith (r : Block accW clkW curW cbW × List (Event cbW))
    (f : Block accW clkW curW cbW → Effect accW clkW curW cbW) : Effect accW clkW curW cbW :=
  match f r.1 with
  | .ok (b, events) => .ok (b, r.2 ++ events)
  | .error e => .error e

/-- `Fire(cb)`, the entry of a callback (R76, R105): the event `FIRE(cb)` and the opened window. Nothing is saved, the
out cursor stays. -/
def fire (cb : BitVec cbW) (b : Block accW clkW curW cbW) :
    Block accW clkW curW cbW × List (Event cbW) :=
  ({ b with phase := .firing }, [.fire cb])

/-- The return of a callback (R77, R106): the head slot is reclaimed and the window closes. -/
def closeWindow (b : Block accW clkW curW cbW) : Block accW clkW curW cbW :=
  { b with qout := increment b.qout, phase := .idle }

/-- A meaning's effect on the whole state: the block's next state, the events appended to the trace (R8, R36). -/
def commit (s : State) (e : Effect 32 32 32 16) : Host.Outcome State Fault Refusal :=
  match e with
  | .ok (b, events) => .next { s with block := b, trace := s.trace ++ events }
  | .error r => .refused r

/-- The command port hands over its next word; none where no command is presented (R41). -/
def fetch (s : State) : Option (CmdWord × State) :=
  match s.port with
  | [] => none
  | w :: rest => some (w, { s with port := rest })

/-- A word placed in front of the command port. -/
def present (w : CmdWord) (s : State) : State := { s with port := w :: s.port }

/-- The effect of the reset input `rst` (R117, R119): the whole block as after reset, no event; what waits at the port
and what the outputs already carried are outside the block. `step` has no such move (U16). -/
def applyRst (s : State) : State := { s with block := Block.reset 32 32 32 16 }

/-- The bitstream words of a trace in order: what the sink received on `sink_data` (R48). -/
def wordsOf (trace : List (Event cbW)) : List BitWord :=
  trace.filterMap fun e =>
    match e with
    | .word w => some w
    | .fire _ => none

/-- The callback tags of a trace in order: what the handler received on `fire_cb` (R48). -/
def firesOf (trace : List (Event cbW)) : List (BitVec cbW) :=
  trace.filterMap fun e =>
    match e with
    | .word _ => none
    | .fire cb => some cb

/-- A part of a run after a first part. -/
def andThen (o : Host.Outcome State Fault Refusal) (f : State → Host.Outcome State Fault Refusal) :
    Host.Outcome State Fault Refusal :=
  match o with
  | .next s => f s
  | .fault r => .fault r
  | .refused r => .refused r

end Sys2Proof.Machine
end

