-- ==== Sys2Proof/Machine/Operands.lean ====
section
/-! DEFINITION. What the operand of each command stands for. -/

namespace Sys2Proof.Machine

variable {clkW : Nat}

/-- The sample's mathematical value, `signed_16` of the field (R43, R62). -/
def sampleValue (s : Sample) : Int := s.toInt

/-- The target of `SCHED_ABS`: the count as given, not compared with the clock (R65). -/
def absTarget (t : BitVec clkW) : BitVec clkW := t

/-- The target of `SCHED_REL`: `sclk + d` modulo `2^CLK_W` (R66, R70). -/
def relTarget (sclk d : BitVec clkW) : BitVec clkW := sclk + d

end Sys2Proof.Machine
end

