-- ==== Sys2Proof/Machine/Flags.lean ====
section
/-! DEFINITION. The predicates computed from the registers (10_state.md rule R19; the block stores no flag), the
signed-difference test (R7) and the pending actions (R17). -/

namespace Sys2Proof.Machine

variable {accW clkW curW cbW : Nat}

/-- `count = wrapu_CUR_W(qin - qout)` (R17). -/
def pendingCount (b : Block accW clkW curW cbW) : Nat := (b.qin - b.qout).toNat

/-- `q_empty` (R19). -/
abbrev qEmpty (b : Block accW clkW curW cbW) : Prop := b.qin = b.qout

/-- `q_full`: the pending count equals or exceeds the capacity (R19, R64, decision D15). -/
abbrev qFull (b : Block accW clkW curW cbW) : Prop := Config.qcap ≤ pendingCount b

/-- `sdiff(t, k)`, the signed difference of two counts (R7). -/
def sdiff (t k : BitVec clkW) : Int := (t - k).toInt

/-- A target is due at clock `k` (R7, R73). -/
abbrev due (t k : BitVec clkW) : Prop := sdiff t k ≤ 0

/-- The head peek of `EMIT`: the slot at the out cursor, read only if something is pending (R29, R72). -/
def headView (b : Block accW clkW curW cbW) : HeadView clkW cbW :=
  if qEmpty b then .empty
  else
    match memRead b.slots (slotIndex b.qout) with
    | none => .unwritten
    | some a => .pending a

/-- `head_due` (R19). DESIGN CHOICE (log entry 24): where something is pending but the head slot is unwritten, R19 has no
target to compare and the predicate is false here; no run from reset gets there (R30), and `EMIT` itself refuses (U4). -/
def headDue (b : Block accW clkW curW cbW) : Bool :=
  match headView b with
  | .empty => false
  | .unwritten => false
  | .pending a => decide (due a.target b.sclk)

/-- The slot of the `j`-th oldest pending action, `(qout + j) & 15` (R17). -/
def pendingIndex (b : Block accW clkW curW cbW) (j : Nat) : SlotIndex :=
  slotIndex (b.qout + BitVec.ofNat curW j)

/-- The pending actions, oldest first (R17). DESIGN CHOICE (log entry 24): a pending slot that is unwritten holds no action
and is passed over, so the list is shorter than `count` there; no run from reset gets there (R30). -/
def pendingActions (b : Block accW clkW curW cbW) : List (Action clkW cbW) :=
  (List.range (pendingCount b)).filterMap fun j => memRead b.slots (pendingIndex b j)

end Sys2Proof.Machine
end

