-- ==== Sys2Proof/Machine/Encoder.lean ====
section
/-! DEFINITION. The PDM encoder (40_pdm_encoder.md): the datapath of EMIT, generic in the accumulator's width. -/

namespace Sys2Proof.Machine

variable {accW : Nat}

/-- `BitStep(acc, s)` (R53): the output bit and the next accumulator. Signed comparison, equality included; the
feedback term is added over the integers and wrapped (R62, conflict C1). -/
def bitStep (acc : BitVec accW) (s : Sample) : Bool × BitVec accW :=
  if sampleValue s ≥ acc.toInt then
    (true, wrap accW (acc.toInt + (Config.sMax - sampleValue s)))
  else
    (false, wrap accW (acc.toInt + (Config.sMin - sampleValue s)))

/-- One generated bit shifted into the word, `wrapu_32((w << 1) | b)` (R54). -/
def shiftIn (w : BitWord) (bit : Bool) : BitWord := (w <<< 1) ||| BitVec.setWidth 32 (BitVec.ofBool bit)

/-- `n` bit-steps in sequence, each on the accumulator the one before left (R54). -/
def encodeSteps (s : Sample) (n : Nat) (w : BitWord) (acc : BitVec accW) : BitWord × BitVec accW :=
  match n with
  | 0 => (w, acc)
  | n + 1 => encodeSteps s n (shiftIn w (bitStep acc s).1) (bitStep acc s).2

/-- `Encode(acc, s)` (R54): the word of one sample and the accumulator for the next. -/
def encodeSample (acc : BitVec accW) (s : Sample) : BitWord × BitVec accW :=
  encodeSteps s Config.osr 0#32 acc

/-- `Encode` over a sequence of samples: the accumulator one sample leaves is the next one's (R55). -/
def encodeRun (acc : BitVec accW) (xs : List Sample) : List BitWord × BitVec accW :=
  match xs with
  | [] => ([], acc)
  | x :: rest =>
    ((encodeSample acc x).1 :: (encodeRun (encodeSample acc x).2 rest).1,
      (encodeRun (encodeSample acc x).2 rest).2)

/-- The number of 1 bits in a word (R57). -/
def onesIn (w : BitWord) : Nat := (List.range 32).countP fun i => w.getLsbD i

end Sys2Proof.Machine
end

