-- ==== Sys2Proof/Machine/EmitRet.lean ====
section
/-! DEFINITION. EMIT, the firing of the head action, and RET (42_emit_and_fire.md). -/

namespace Sys2Proof.Machine

variable {accW clkW curW cbW : Nat}

/-- Steps 1 to 3 of `EMIT` (R72, R37): encode and update the accumulator, output the word, advance the clock. -/
def emitWord (x : Sample) (b : Block accW clkW curW cbW) :
    Block accW clkW curW cbW × List (Event cbW) :=
  ({ b with
      acc := (encodeSample b.acc x).2
      sclk := increment b.sclk }, [.word (encodeSample b.acc x).1])

/-- Step 4 of `EMIT` (R72): one look at the head, against the clock as it now stands, and at most one firing (R74). -/
def pollHead (b : Block accW clkW curW cbW) : Effect accW clkW curW cbW :=
  match headView b with
  | .empty => .ok (b, [])
  | .unwritten => .error .unwrittenSlot
  | .pending a => if due a.target b.sclk then .ok (fire a.cb b) else .ok (b, [])

/-- `EMIT x` on the block (R72): legal in the host context only (R78, R110). -/
def emitBlock (x : Sample) (b : Block accW clkW curW cbW) : Effect accW clkW curW cbW :=
  match b.phase with
  | .firing => .error .emitInFireWindow
  | .idle => continueWith (emitWord x b) pollHead

/-- `RET` on the block (R77): legal in the handler context only (R110). -/
def retBlock (b : Block accW clkW curW cbW) : Effect accW clkW curW cbW :=
  match b.phase with
  | .idle => .error .retOutsideFireWindow
  | .firing => .ok (closeWindow b, [])

/-- `EMIT x` (R72). -/
def execEmit (x : Sample) (s : State) : Host.Outcome State Fault Refusal :=
  commit s (emitBlock x s.block)

/-- `RET` (R77). -/
def execRet (s : State) : Host.Outcome State Fault Refusal :=
  commit s (retBlock s.block)

end Sys2Proof.Machine
end

