-- ==== Sys2Proof/Machine/Schedule.lean ====
section
/-! DEFINITION. The scheduling commands (41_schedule.md). -/

namespace Sys2Proof.Machine

variable {accW clkW curW cbW : Nat}

/-- `Enqueue(t, cb)` (R64): a full queue drops the request silently (R67); otherwise the slot at the in cursor is
written and the cursor moves. -/
def enqueue (t : BitVec clkW) (cb : BitVec cbW) (b : Block accW clkW curW cbW) :
    Effect accW clkW curW cbW :=
  if qFull b then drop b
  else
    .ok ({ b with
      slots := memWrite b.slots (slotIndex b.qin) ⟨t, cb⟩
      qin := increment b.qin }, [])

/-- `SCHED_ABS t, cb` on the block (R65), in both phases (R69). -/
def schedAbsBlock (t : BitVec clkW) (cb : BitVec cbW) (b : Block accW clkW curW cbW) :
    Effect accW clkW curW cbW :=
  enqueue (absTarget t) cb b

/-- `SCHED_REL d, cb` on the block (R66), in both phases (R69). -/
def schedRelBlock (d : BitVec clkW) (cb : BitVec cbW) (b : Block accW clkW curW cbW) :
    Effect accW clkW curW cbW :=
  enqueue (relTarget b.sclk d) cb b

/-- `SCHED_ABS t, cb` (R65). -/
def execSchedAbs (t : Count) (cb : Tag) (s : State) : Host.Outcome State Fault Refusal :=
  commit s (schedAbsBlock t cb s.block)

/-- `SCHED_REL d, cb` (R66). -/
def execSchedRel (d : Count) (cb : Tag) (s : State) : Host.Outcome State Fault Refusal :=
  commit s (schedRelBlock d cb s.block)

end Sys2Proof.Machine
end

