-- ==== Sys2Proof/Machine/LevelA.lean ====
section
/-! DEFINITION. Level A (00_scope.md rule R2): one command, and a list of commands, on the block alone, at any of the four
widths of R5 (U18). -/

namespace Sys2Proof.Machine

variable {accW clkW curW cbW : Nat}

/-- A command at level A (R2), its operands at the block's own `CLK_W` and `CB_W`. `Instr` is the command at the default
widths, the only ones for which R42 defines a command word. -/
inductive Command (clkW cbW : Nat) where
  /-- `EMIT s` (R72). -/
  | emit (s : Sample)
  /-- `SCHED_ABS t, cb` (R65). -/
  | schedAbs (t : BitVec clkW) (cb : BitVec cbW)
  /-- `SCHED_REL d, cb` (R66). -/
  | schedRel (d : BitVec clkW) (cb : BitVec cbW)
  /-- `RET` (R77). -/
  | ret
  deriving DecidableEq, Repr

/-- The command of an instruction (R2). -/
def commandOf (i : Instr) : Command 32 16 :=
  match i with
  | .emit x => .emit x
  | .schedAbs t cb => .schedAbs t cb
  | .schedRel d cb => .schedRel d cb
  | .ret => .ret

/-- One command on the block (R9, R10). -/
def runCommand (c : Command clkW cbW) (b : Block accW clkW curW cbW) : Effect accW clkW curW cbW :=
  match c with
  | .emit x => emitBlock x b
  | .schedAbs t cb => schedAbsBlock t cb b
  | .schedRel d cb => schedRelBlock d cb b
  | .ret => retBlock b

/-- Commands one after another (R36); the run is refused at the first refused command. -/
def runBlock (cs : List (Command clkW cbW)) (b : Block accW clkW curW cbW) :
    Effect accW clkW curW cbW :=
  match cs with
  | [] => .ok (b, [])
  | c :: rest =>
    match runCommand c b with
    | .ok r => continueWith r (runBlock rest)
    | .error e => .error e

end Sys2Proof.Machine
end

