-- ==== Sys2Proof/Machine/Dispatch.lean ====
section
/-! DEFINITION. One arm per command: the meaning of each. -/

namespace Sys2Proof.Machine

def exec (i : Instr) (s : State) : Host.Outcome State Fault Refusal :=
  match i with
  | .emit x => Sys2Proof.Machine.execEmit x s
  | .schedAbs t cb => Sys2Proof.Machine.execSchedAbs t cb s
  | .schedRel d cb => Sys2Proof.Machine.execSchedRel d cb s
  | .ret => Sys2Proof.Machine.execRet s

end Sys2Proof.Machine
end

