-- ==== Sys2Proof/Machine/Step.lean ====
section
/-! DEFINITION. One step: the next command of the port is accepted, decoded and executed completely (R10, R41). -/

namespace Sys2Proof.Machine

/-- One transaction of the command port (R41). With no command presented nothing happens; an invalid word is refused
(R46); otherwise the decoded command executes. -/
def step (s : State) : Host.Outcome State Fault Refusal :=
  match fetch s with
  | none => .next s
  | some (w, rest) =>
    match decode w with
    | .ok i => exec i rest
    | .error _ => .refused .reservedEncoding

/-- `s` with a command word, given as the opcode table numbers its bits, presented next at the command port. -/
def State.withFetchWord (s : State) (nbits w : Nat) : State := present (tableWord nbits w) s

end Sys2Proof.Machine
end

