-- ==== Sys2Proof/Machine/Contexts.lean ====
section
/-! DEFINITION. The agents around the block (60_exceptions.md rules R107, R110; 70_reset_and_hazards.md rules R132, R133):
command lists, the handler context, and a host that plays samples while the handler serves what fires. -/

namespace Sys2Proof.Machine

/-- Commands one after another on the whole state (R36). -/
def runCommands (is : List Instr) (s : State) : Host.Outcome State Fault Refusal :=
  match is with
  | [] => .next s
  | i :: rest => andThen (exec i s) (runCommands rest)

/-- The acceptance condition of a finite run (R133): no command is refused and no fire window is left open. -/
def runAccepted (is : List Instr) (s : State) : Bool :=
  match runCommands is s with
  | .next t => decide (t.block.phase = .idle)
  | .fault _ => false
  | .refused _ => false

/-- A command a callback may issue besides its `RET` (R107). -/
inductive SchedRequest where
  /-- `SCHED_ABS t, cb`. -/
  | absolute (t : Count) (cb : Tag)
  /-- `SCHED_REL d, cb`. -/
  | relative (d : Count) (cb : Tag)
  deriving DecidableEq, Repr

/-- The command of a request. -/
def requestCommand (q : SchedRequest) : Instr :=
  match q with
  | .absolute t cb => .schedAbs t cb
  | .relative d cb => .schedRel d cb

/-- The action a request asks for when the clock stands at `sclk` (R65, R66). -/
def requestAction (sclk : Count) (q : SchedRequest) : Action 32 16 :=
  match q with
  | .absolute t cb => ⟨absTarget t, cb⟩
  | .relative d cb => ⟨relTarget sclk d, cb⟩

/-- A behaviour of the handler context: at each firing it has the output events so far, the last of them the `FIRE`, and
answers with a finite list of scheduling commands (R107, U20). Statements quantify over all of them. -/
abbrev Handler := List (Event 16) → List SchedRequest

/-- What the handler issues for one firing: its requests, then exactly one `RET` (R107). -/
def callbackCommands (h : Handler) (s : State) : List Instr :=
  (h s.trace).map requestCommand ++ [.ret]

/-- After a command of the host: if a window opened, the handler runs its callback to the `RET` (R96, R106). -/
def serve (h : Handler) (s : State) : Host.Outcome State Fault Refusal :=
  match s.block.phase with
  | .idle => .next s
  | .firing => runCommands (callbackCommands h s) s

/-- One sample emitted by the host, with the fire window it may open served (R96). -/
def playSample (h : Handler) (x : Sample) (s : State) : Host.Outcome State Fault Refusal :=
  andThen (exec (.emit x) s) (serve h)

/-- Samples played in order: the sequencer issues its next `EMIT` only after the `RET` (R96, R132). -/
def playSamples (h : Handler) (xs : List Sample) (s : State) : Host.Outcome State Fault Refusal :=
  match xs with
  | [] => .next s
  | x :: rest => andThen (playSample h x s) (playSamples h rest)

end Sys2Proof.Machine
end

