-- ==== Sys2Proof/Machine/Generators.lean ====
section
/-! DEFINITION. The waveform generators (43_waveform_generators.md): pseudo-operations of the client sequencer, as the
samples they expand to and as runs through EMIT. The beep's arithmetic is exact and generic over every ordered field with
a floor, so that it reads over the reals, as the spec states it, and evaluates over the rationals; a beep computed in
some floating point is the same beep with that computation's boundaries and count for an argument (R94). -/

namespace Sys2Proof.Machine

/-- `RAMP_IN` with an increment of `step`: `S_MIN + step * i`, `i = 0 .. 2047` (R84). -/
def rampInWith (step : Nat) : List Int :=
  (List.range Config.rampLen).map fun i : Nat => Config.sMin + (step : Int) * (i : Int)

/-- `RAMP_OUT` with an increment of `step`: `-step - step * i`, `i = 0 .. 2047` (R85). DESIGN CHOICE (log entry 25): R85 and
D18 also call it `RAMP_IN` reversed, which agrees with the formula for `step = 16` only; elsewhere the formula is taken. -/
def rampOutWith (step : Nat) : List Int :=
  (List.range Config.rampLen).map fun i : Nat => -(step : Int) - (step : Int) * (i : Int)

/-- `RAMP_IN` (R84). -/
def rampIn : List Int := rampInWith Config.rampStep

/-- `RAMP_OUT` (R85). -/
def rampOut : List Int := rampOutWith Config.rampStep

/-- What a ramp must satisfy whatever its increment (R86): 2048 samples, one fixed step throughout, all of them legal. -/
abbrev conformsToRamp (step : Int) (xs : List Int) : Prop :=
  xs.length = Config.rampLen ∧ (∀ i, i + 1 < xs.length → xs.getD (i + 1) 0 = xs.getD i 0 + step) ∧
    ∀ x ∈ xs, Config.sMin ≤ x ∧ x ≤ Config.sMax

variable {α : Type} [Field α] [LinearOrder α] [FloorRing α]

/-- The half-period `H` in samples, not rounded (R88). -/
def halfPeriod (sampleRate freq : α) : α := sampleRate / (2 * freq)

/-- `N0`, the half-periods that cover the duration (R89). -/
def halfPeriodsNeeded (freq len : α) : Nat := ⌈2 * freq * len⌉.toNat

/-- `N`: a count forced even (R89). -/
def forcedEven (n : Nat) : Nat := n + n % 2

/-- `high`: the high phase's level (R90). -/
def beepHigh (volume : α) : Int := Config.sMin + ⌊volume * ((Config.sMax - Config.sMin : Int) : α)⌋

/-- `b_k = floor(k * H)`, each boundary computed afresh (R91). -/
def beepBoundary (sampleRate freq : α) (k : Nat) : Nat := ⌊(k : α) * halfPeriod sampleRate freq⌋.toNat

/-- The level of half-period number `k`: high if `k` is even, low if odd (R92, conflict C5). -/
def beepLevel (high : Int) (k : Nat) : Int := if k % 2 = 0 then high else Config.sMin

/-- The expansion of a beep of `n` half-periods with boundaries `b` (R92). The boundaries are an argument because the
document computes them in floating point of no stated format (R94). -/
def beepExpansion (b : Nat → Nat) (n : Nat) (high : Int) : List Int :=
  (List.range n).flatMap fun k : Nat => List.replicate (b (k + 1) - b k) (beepLevel high k)

/-- What any boundary computation must satisfy for `n` half-periods of length `h` (R94). -/
abbrev admissibleBoundaries (h : α) (n : Nat) (b : Nat → Nat) : Prop :=
  b 0 = 0 ∧ (∀ k < n, b k ≤ b (k + 1)) ∧ ∀ k ≤ n, |(b k : α) - (k : α) * h| < 1

/-- What any computation of `N0` must satisfy, `e` bounding the error of its product (R94). -/
abbrev admissibleCount (freq len e : α) (n0 : Int) : Prop := |(n0 : α) - 2 * freq * len| < 1 + e

/-- What a sequencer computes for one beep before it plays it: the two parameters of R94. -/
structure BeepPlan where
  /-- `N0`, any integer that meets the constraint. -/
  needed : Int
  /-- `b_k`, read for `k = 0 .. N`. -/
  boundary : Nat → Nat

/-- `N`: the half-periods a plan plays, its `N0` forced even (R89). DEDUCED (log entry 18): an `N0` below zero plays
none, since R92's loop is then empty. -/
def plannedCount (p : BeepPlan) : Nat := forcedEven p.needed.toNat

/-- A plan meets R94's constraints for the operands `freq` and `len`. -/
abbrev admissiblePlan (sampleRate freq len e : α) (p : BeepPlan) : Prop :=
  admissibleBoundaries (halfPeriod sampleRate freq) (plannedCount p) p.boundary ∧
    admissibleCount freq len e p.needed

/-- The plan of exact arithmetic, the reference (R89, R91, R94). -/
def exactPlan (sampleRate freq len : α) : BeepPlan where
  needed := halfPeriodsNeeded freq len
  boundary := beepBoundary sampleRate freq

/-- The domain of `BEEP` (R87). -/
abbrev beepDomain (freq len volume : α) : Prop := 0 < freq ∧ 0 ≤ len ∧ 0 ≤ volume ∧ volume ≤ 1

/-- An operand of `BEEP` as the sequencer is given it: a number, or the not-a-number that R87 names and refuses. -/
inductive BeepOperand (α : Type) where
  /-- A real, in or out of the domain. -/
  | number (x : α)
  /-- Not-a-number (R87, U13). -/
  | nan
  deriving DecidableEq, Repr

/-- The samples of `BEEP freq, len, volume` with `plan freq len` for its boundaries and count (R92, R94), or `BEEP_DOMAIN`
where an operand is not-a-number or outside the domain (R87, R100, U13). -/
def beepSamplesBy (plan : α → α → BeepPlan) (freq len volume : BeepOperand α) :
    Except Refusal (List Int) :=
  match freq, len, volume with
  | .number f, .number l, .number v =>
    if beepDomain f l v then
      .ok (beepExpansion (plan f l).boundary (plannedCount (plan f l)) (beepHigh v))
    else .error .beepDomain
  | .nan, _, _ => .error .beepDomain
  | .number _, .nan, _ => .error .beepDomain
  | .number _, .number _, .nan => .error .beepDomain

/-- The samples of `BEEP` over exact arithmetic (R88 to R92). -/
def beepSamples (sampleRate : α) (freq len volume : BeepOperand α) : Except Refusal (List Int) :=
  beepSamplesBy (exactPlan sampleRate) freq len volume

/-- A generated sample as `EMIT`'s operand. DESIGN CHOICE (log entry 26): a value outside `i16`, which R85's formula gives for
increments beyond 16, is wrapped modulo `2^16` and played, not refused; the spec gives such a sample no meaning. -/
def asSample (x : Int) : Sample := wrap 16 x

/-- A generator's expansion played through `EMIT`, the handler serving what fires (R83, R96). In `phase = FIRING` it is
refused at its first `EMIT` (R78, U2). DESIGN CHOICE (log entry 23): an EMPTY expansion issues no `EMIT`, so it completes with
no change even then; R83 and D20 refuse a generator run from a callback through its `EMIT`s, and leave that case open. -/
def playExpansion (h : Handler) (xs : List Int) (s : State) : Host.Outcome State Fault Refusal :=
  playSamples h (xs.map asSample) s

/-- `RAMP_IN` (R84, R96). -/
def playRampIn (h : Handler) (s : State) : Host.Outcome State Fault Refusal := playExpansion h rampIn s

/-- `RAMP_OUT` (R85, R96). -/
def playRampOut (h : Handler) (s : State) : Host.Outcome State Fault Refusal := playExpansion h rampOut s

/-- `BEEP freq, len, volume` with `plan freq len` for its boundaries and count (R87, R92, R94, R96). DESIGN CHOICE (log
entry 23): the domain is checked before the phase, so a `BEEP` that breaks R87 and R83 at once answers `BEEP_DOMAIN`. -/
def playBeepBy (plan : α → α → BeepPlan) (h : Handler) (freq len volume : BeepOperand α)
    (s : State) : Host.Outcome State Fault Refusal :=
  match beepSamplesBy plan freq len volume with
  | .ok xs => playExpansion h xs s
  | .error r => .refused r

/-- `BEEP freq, len, volume` over exact arithmetic (R87 to R92, R96). -/
def playBeep (h : Handler) (sampleRate : α) (freq len volume : BeepOperand α) (s : State) :
    Host.Outcome State Fault Refusal :=
  playBeepBy (exactPlan sampleRate) h freq len volume s

end Sys2Proof.Machine
end

