-- ==== Sys2Proof/Safety.lean ====
section
/-! DEFINITION. What claims are stated in: the states a run can reach, the invariant of those states, the contexts a
command is legal in, and the block read as a clock, an accumulator and a first-in first-out list. -/

namespace Sys2Proof

open Sys2Proof.Machine

/-- The contexts a command is legal in, the column `legal_phase` of the opcode table (R52, R110). -/
def legalIn (p : Phase) (i : Instr) : Bool :=
  match i, p with
  | .emit _, .idle => true
  | .emit _, .firing => false
  | .schedAbs _ _, _ => true
  | .schedRel _ _, _ => true
  | .ret, .idle => false
  | .ret, .firing => true

/-- The states of executions from reset (R117): any list of words may be presented at the port. -/
inductive Reachable : State → Prop where
  | reset (words : List CmdWord) : Reachable { State.reset with port := words }
  | step {s t : State} : Reachable s → step s = .next t → Reachable t

section Blocks

variable {accW clkW curW cbW : Nat}

/-- `ACC_RESET` within R5's constraint. -/
abbrev accResetLegal (accReset : Int) : Prop := -32767 ≤ accReset ∧ accReset ≤ 32767

/-- The reachable range of the accumulator (R13). -/
abbrev accInRange {n : Nat} (acc : BitVec n) : Prop := -32767 ≤ acc.toInt ∧ acc.toInt ≤ 32767

/-- Every slot counted as pending is a written one (R30, R64). -/
abbrev pendingWritten (b : Block accW clkW curW cbW) : Prop :=
  ∀ j < pendingCount b, (memRead b.slots (pendingIndex b j)).isSome

/-- The invariant of the reachable blocks: the accumulator's range (R13), the queue's bound (R17), a running callback
counted as pending (R17, R18), written pending slots (R30), the slot memory in its canonical form. -/
abbrev blockInv (b : Block accW clkW curW cbW) : Prop :=
  accInRange b.acc ∧ pendingCount b ≤ Config.qcap ∧ (b.phase = .firing → 1 ≤ pendingCount b) ∧
    pendingWritten b ∧ Memory.wf b.slots

/-- The part of the block the encoder does not touch: the scheduler's state (R82). -/
abbrev sameScheduler (b c : Block accW clkW curW cbW) : Prop :=
  b.sclk = c.sclk ∧ b.qin = c.qin ∧ b.qout = c.qout ∧ b.slots = c.slots ∧ b.phase = c.phase

end Blocks

/-- Two blocks, perhaps of different accumulator and cursor widths, that no observation tells apart (R20, R58). -/
abbrev sameObservable {accW curW accW' curW' clkW cbW : Nat} (b : Block accW clkW curW cbW)
    (c : Block accW' clkW curW' cbW) : Prop :=
  b.acc.toInt = c.acc.toInt ∧ b.sclk = c.sclk ∧ pendingCount b = pendingCount c ∧
    slotIndex b.qin = slotIndex c.qin ∧ slotIndex b.qout = slotIndex c.qout ∧
    b.slots = c.slots ∧ b.phase = c.phase

/-- Two results that agree: both refused for the same reason, or both completed with the same events and related states. -/
abbrev sameResult {β γ : Type} {cbW : Nat} (rel : β → γ → Prop)
    (p : Except Refusal (β × List (Event cbW))) (q : Except Refusal (γ × List (Event cbW))) : Prop :=
  match p, q with
  | .ok (b, e), .ok (c, f) => rel b c ∧ e = f
  | .error r, .error r' => r = r'
  | .ok _, .error _ => False
  | .error _, .ok _ => False

/-- The clock is the number of words output since reset, modulo its width (R81). -/
abbrev clockCountsWords (s : State) : Prop :=
  s.block.sclk = BitVec.ofNat 32 (wordsOf s.trace).length

/-- The out cursor and the running callback account for every firing since reset (R22, R75, R77). -/
abbrev cursorCountsFires (s : State) : Prop :=
  s.block.qout + (match s.block.phase with | .idle => 0#32 | .firing => 1#32)
    = BitVec.ofNat 32 (firesOf s.trace).length

/-- The block as the spec's prose describes it: an accumulator value, a clock, the pending actions oldest first, and
whether the oldest is being executed. No cursors, no slots, no widths but the clock's and the tag's. -/
structure QueueView where
  acc : Int
  sclk : Count
  pending : List (Action 32 16)
  phase : Phase
  deriving DecidableEq, Repr

/-- The view of a block. -/
def viewOf {accW curW : Nat} (b : Block accW 32 curW 16) : QueueView where
  acc := b.acc.toInt
  sclk := b.sclk
  pending := pendingActions b
  phase := b.phase

/-- `BitStep` over unbounded integers (R13: no step wraps in the reachable range). -/
def viewBitStep (acc s : Int) : Bool × Int :=
  if s ≥ acc then (true, acc + (Config.sMax - s)) else (false, acc + (Config.sMin - s))

/-- `Encode` over unbounded integers: `n` bits, the first generated one first, and the accumulator left. -/
def viewEncode (s : Int) (n : Nat) (acc : Int) : List Bool × Int :=
  match n with
  | 0 => ([], acc)
  | n + 1 => ((viewBitStep acc s).1 :: (viewEncode s n (viewBitStep acc s).2).1,
      (viewEncode s n (viewBitStep acc s).2).2)

/-- Bits packed into a word, the first one most significant (R54). -/
def packBits (bits : List Bool) : BitWord :=
  BitVec.ofNat 32 (bits.foldl (fun w bit => 2 * w + bit.toNat) 0)

/-- Appending a request to a first-in first-out list of at most 16 actions; a full one drops it (R67, R68). -/
def viewEnqueue (t : Count) (cb : Tag) (v : QueueView) : QueueView :=
  if 16 ≤ v.pending.length then v else { v with pending := v.pending ++ [⟨t, cb⟩] }

/-- One `EMIT` on the view: word, clock, then the oldest action and it alone (R72, R74). -/
def viewEmit (x : Sample) (v : QueueView) : QueueView × List (Event 16) :=
  let word : Event 16 := .word (packBits (viewEncode x.toInt 32 v.acc).1)
  let after : QueueView := { v with acc := (viewEncode x.toInt 32 v.acc).2, sclk := v.sclk + 1 }
  match v.pending with
  | [] => (after, [word])
  | a :: _ =>
    if (v.sclk + 1 - a.target).toNat ≤ 2147483648 then
      ({ after with phase := .firing }, [word, .fire a.cb])
    else (after, [word])

/-- One command on the view, legal or refused. -/
def viewCommand (i : Instr) (v : QueueView) : Except Refusal (QueueView × List (Event 16)) :=
  match i, v.phase with
  | .emit x, .idle => .ok (viewEmit x v)
  | .emit _, .firing => .error .emitInFireWindow
  | .schedAbs t cb, _ => .ok (viewEnqueue t cb v, [])
  | .schedRel d cb, _ => .ok (viewEnqueue (v.sclk + d) cb v, [])
  | .ret, .idle => .error .retOutsideFireWindow
  | .ret, .firing => .ok ({ v with pending := v.pending.tail, phase := .idle }, [])

end Sys2Proof
end

