-- ==== Sys2Proof/Laws/State.lean ====
section
/-! SUPPORT. The small lemmas of the state: one per field per update. -/

namespace Sys2Proof.Laws

open Sys2Proof.Machine

variable {accW clkW curW cbW : Nat}

/-- The numerals in `State` and `Word` are Config's default widths (R5). -/
theorem default_widths :
    Block Config.accW Config.clkW Config.curW Config.cbW = Block 32 32 32 16 ∧
      BitVec Config.sW = Sample ∧ BitVec Config.clkW = Count ∧ BitVec Config.cbW = Tag ∧
      BitVec Config.osr = BitWord ∧ BitVec Config.cmdW = CmdWord ∧
      BitVec Config.qidxW = SlotIndex := ⟨rfl, rfl, rfl, rfl, rfl, rfl, rfl⟩

section Reset

variable (accReset : Int)

@[simp] theorem resetWith_acc :
    (Block.resetWith accW clkW curW cbW accReset).acc = BitVec.ofInt accW accReset := rfl
@[simp] theorem resetWith_sclk : (Block.resetWith accW clkW curW cbW accReset).sclk = 0 := rfl
@[simp] theorem resetWith_qin : (Block.resetWith accW clkW curW cbW accReset).qin = 0 := rfl
@[simp] theorem resetWith_qout : (Block.resetWith accW clkW curW cbW accReset).qout = 0 := rfl
@[simp] theorem resetWith_slots : (Block.resetWith accW clkW curW cbW accReset).slots = [] := rfl
@[simp] theorem resetWith_phase : (Block.resetWith accW clkW curW cbW accReset).phase = .idle := rfl

@[simp] theorem reset_acc : (Block.reset accW clkW curW cbW).acc = BitVec.ofInt accW 0 := rfl
@[simp] theorem reset_sclk : (Block.reset accW clkW curW cbW).sclk = 0 := rfl
@[simp] theorem reset_qin : (Block.reset accW clkW curW cbW).qin = 0 := rfl
@[simp] theorem reset_qout : (Block.reset accW clkW curW cbW).qout = 0 := rfl
@[simp] theorem reset_slots : (Block.reset accW clkW curW cbW).slots = [] := rfl
@[simp] theorem reset_phase : (Block.reset accW clkW curW cbW).phase = .idle := rfl
@[simp] theorem reset_block : State.reset.block = Block.reset 32 32 32 16 := rfl
@[simp] theorem reset_port : State.reset.port = [] := rfl
@[simp] theorem reset_trace : State.reset.trace = [] := rfl

end Reset

section EmitWord

variable (x : Sample) (b : Block accW clkW curW cbW)

@[simp] theorem emitWord_acc : (emitWord x b).1.acc = (encodeSample b.acc x).2 := rfl
@[simp] theorem emitWord_sclk : (emitWord x b).1.sclk = increment b.sclk := rfl
@[simp] theorem emitWord_qin : (emitWord x b).1.qin = b.qin := rfl
@[simp] theorem emitWord_qout : (emitWord x b).1.qout = b.qout := rfl
@[simp] theorem emitWord_slots : (emitWord x b).1.slots = b.slots := rfl
@[simp] theorem emitWord_phase : (emitWord x b).1.phase = b.phase := rfl
@[simp] theorem emitWord_events : (emitWord x b).2 = [.word (encodeSample b.acc x).1] := rfl
@[simp] theorem emitWord_pendingCount : pendingCount (emitWord x b).1 = pendingCount b := rfl
@[simp] theorem emitWord_headView : headView (emitWord x b).1 = headView b := rfl
@[simp] theorem emitWord_pendingActions : pendingActions (emitWord x b).1 = pendingActions b := rfl

end EmitWord

section Window

variable (cb : BitVec cbW) (b : Block accW clkW curW cbW)

@[simp] theorem fire_acc : (fire cb b).1.acc = b.acc := rfl
@[simp] theorem fire_sclk : (fire cb b).1.sclk = b.sclk := rfl
@[simp] theorem fire_qin : (fire cb b).1.qin = b.qin := rfl
@[simp] theorem fire_qout : (fire cb b).1.qout = b.qout := rfl
@[simp] theorem fire_slots : (fire cb b).1.slots = b.slots := rfl
@[simp] theorem fire_phase : (fire cb b).1.phase = .firing := rfl
@[simp] theorem fire_events : (fire cb b).2 = [.fire cb] := rfl
@[simp] theorem fire_pendingCount : pendingCount (fire cb b).1 = pendingCount b := rfl
@[simp] theorem fire_pendingActions : pendingActions (fire cb b).1 = pendingActions b := rfl

@[simp] theorem closeWindow_acc : (closeWindow b).acc = b.acc := rfl
@[simp] theorem closeWindow_sclk : (closeWindow b).sclk = b.sclk := rfl
@[simp] theorem closeWindow_qin : (closeWindow b).qin = b.qin := rfl
@[simp] theorem closeWindow_qout : (closeWindow b).qout = increment b.qout := rfl
@[simp] theorem closeWindow_slots : (closeWindow b).slots = b.slots := rfl
@[simp] theorem closeWindow_phase : (closeWindow b).phase = .idle := rfl

end Window

section Commit

variable (s : State) (b : Block 32 32 32 16) (events : List (Event 16)) (r : Refusal)

@[simp] theorem commit_ok :
    commit s (.ok (b, events)) = .next { s with block := b, trace := s.trace ++ events } := rfl
@[simp] theorem commit_error : commit s (.error r) = .refused r := rfl

/-- Everything a commit can do: it is a next state exactly when the effect completed. -/
theorem commit_next_iff {e : Effect 32 32 32 16} {t : State} :
    commit s e = .next t ↔
      ∃ b events, e = .ok (b, events) ∧ t = { s with block := b, trace := s.trace ++ events } := by
  rcases e with r | ⟨b, events⟩
  · simp
  · simp only [commit_ok, Host.Outcome.next.injEq]
    exact ⟨fun h => ⟨b, events, rfl, h.symm⟩, fun ⟨b', events', h, ht⟩ => by cases h; exact ht.symm⟩

/-- A command never faults (R9, R99). -/
theorem commit_ne_fault {e : Effect 32 32 32 16} (f : Fault) : commit s e ≠ .fault f := by
  cases f

end Commit

section Port

variable (s : State) (w : CmdWord)

@[simp] theorem present_block : (present w s).block = s.block := rfl
@[simp] theorem present_port : (present w s).port = w :: s.port := rfl
@[simp] theorem present_trace : (present w s).trace = s.trace := rfl
@[simp] theorem fetch_present : fetch (present w s) = some (w, s) := rfl

@[simp] theorem applyRst_block : (applyRst s).block = Block.reset 32 32 32 16 := rfl
@[simp] theorem applyRst_port : (applyRst s).port = s.port := rfl
@[simp] theorem applyRst_trace : (applyRst s).trace = s.trace := rfl

end Port

end Sys2Proof.Laws
end

