-- ==== Sys2Proof/Laws/Ops.lean ====
section
/-! SUPPORT. What the shared operations do: the slot memory, the cursors, the outputs. -/

namespace Sys2Proof.Laws

open Sys2Proof.Machine

variable {accW clkW curW cbW : Nat}

/-! ### The slot memory (R27) -/

/-- A read after a write to the same slot gives the pair written. -/
@[simp] theorem memRead_memWrite_same (m : Memory clkW cbW) (i : SlotIndex) (a : Action clkW cbW) :
    memRead (memWrite m i a) i = some a := by
  induction m with
  | nil => simp [memWrite, memRead]
  | cons c rest ih =>
    obtain ⟨k, b⟩ := c
    simp only [memWrite]
    split
    · simp [memRead]
    · split
      · simp [memRead, *]
      · simp_all [memRead]

/-- A write leaves every other slot alone. -/
theorem memRead_memWrite_other (m : Memory clkW cbW) {i j : SlotIndex} (a : Action clkW cbW)
    (h : j ≠ i) : memRead (memWrite m i a) j = memRead m j := by
  have hne : i.toNat ≠ j.toNat := fun e => h (BitVec.eq_of_toNat_eq e.symm)
  induction m with
  | nil => simp [memWrite, memRead, hne]
  | cons c rest ih =>
    obtain ⟨k, b⟩ := c
    simp only [memWrite]
    split
    · simp [memRead, hne]
    · split
      · subst k; simp [memRead, hne]
      · simp [memRead, ih]

/-- The indices after a write: the old ones and the written one. -/
theorem mem_memWrite {m : Memory clkW cbW} {i : SlotIndex} {a : Action clkW cbW}
    {c : Nat × Action clkW cbW} (h : c ∈ memWrite m i a) : c.1 = i.toNat ∨ c ∈ m := by
  induction m with
  | nil => simp_all [memWrite]
  | cons d rest ih =>
    obtain ⟨k, b⟩ := d
    simp only [memWrite] at h
    split at h
    · rcases List.mem_cons.1 h with rfl | h
      · exact .inl rfl
      · exact .inr h
    · split at h
      · rcases List.mem_cons.1 h with rfl | h
        · exact .inl (by assumption)
        · exact .inr (List.mem_cons_of_mem _ h)
      · rcases List.mem_cons.1 h with rfl | h
        · exact .inr List.mem_cons_self
        · exact (ih h).imp_right (List.mem_cons_of_mem _)

/-- A write keeps the canonical form. -/
theorem memWrite_wf {m : Memory clkW cbW} (h : Memory.wf m) (i : SlotIndex) (a : Action clkW cbW) :
    Memory.wf (memWrite m i a) := by
  refine ⟨?_, fun c hc => ?_⟩
  · obtain ⟨hp, -⟩ := h
    induction m with
    | nil => simp [memWrite]
    | cons d rest ih =>
      obtain ⟨k, b⟩ := d
      obtain ⟨hk, hrest⟩ := List.pairwise_cons.1 hp
      simp only [memWrite]
      split
      · refine List.pairwise_cons.2 ⟨fun c hc => ?_, hp⟩
        rcases List.mem_cons.1 hc with rfl | hc
        · assumption
        · exact lt_trans (by assumption) (hk c hc)
      · split
        · exact List.pairwise_cons.2 ⟨hk, hrest⟩
        · refine List.pairwise_cons.2 ⟨fun c hc => ?_, ih hrest⟩
          rcases mem_memWrite hc with he | hc
          · simp only [he]; omega
          · exact hk c hc
  · rcases mem_memWrite hc with he | hc
    · have := i.isLt
      simp only [Config.qcap]; omega
    · exact h.2 c hc

/-- The reset memory is in the canonical form, whatever `ACC_RESET`. -/
theorem resetWith_memory_wf (accReset : Int) :
    Memory.wf (Block.resetWith accW clkW curW cbW accReset).slots :=
  ⟨List.Pairwise.nil, fun _ h => nomatch h⟩

theorem reset_memory_wf : Memory.wf (Block.reset accW clkW curW cbW).slots :=
  resetWith_memory_wf Config.accReset

/-! ### Cursors and predicates -/

/-- The slot index is the cursor modulo the capacity (R28). -/
@[simp] theorem slotIndex_toNat (c : BitVec curW) : (slotIndex c).toNat = c.toNat % 16 := by
  simp [slotIndex]

/-- The due window (R7), as the wrapped distance of the clock past the target. -/
theorem sdiff_eq (t k : BitVec clkW) : sdiff t k = (t - k).toInt := rfl

/-- The head peek, case by case (R72). -/
theorem headView_pending_iff {b : Block accW clkW curW cbW} {a : Action clkW cbW} :
    headView b = .pending a ↔ ¬ qEmpty b ∧ memRead b.slots (slotIndex b.qout) = some a := by
  unfold headView
  split
  · simp_all
  · split <;> simp_all

theorem headView_unwritten_iff {b : Block accW clkW curW cbW} :
    headView b = .unwritten ↔ ¬ qEmpty b ∧ memRead b.slots (slotIndex b.qout) = none := by
  unfold headView
  split
  · simp_all
  · split <;> simp_all

theorem headView_empty_iff {b : Block accW clkW curW cbW} : headView b = .empty ↔ qEmpty b := by
  unfold headView
  split
  · exact iff_of_true rfl (by assumption)
  · split <;> simp_all

/-! ### Outputs -/

@[simp] theorem wordsOf_nil : wordsOf ([] : List (Event cbW)) = [] := rfl
@[simp] theorem wordsOf_append (l m : List (Event cbW)) : wordsOf (l ++ m) = wordsOf l ++ wordsOf m := by
  simp [wordsOf]
@[simp] theorem wordsOf_word (w : BitWord) : wordsOf [(.word w : Event cbW)] = [w] := rfl
@[simp] theorem wordsOf_fire (cb : BitVec cbW) : wordsOf [.fire cb] = [] := rfl
@[simp] theorem firesOf_nil : firesOf ([] : List (Event cbW)) = [] := rfl
@[simp] theorem firesOf_append (l m : List (Event cbW)) : firesOf (l ++ m) = firesOf l ++ firesOf m := by
  simp [firesOf]
@[simp] theorem firesOf_word (w : BitWord) : firesOf [(.word w : Event cbW)] = [] := rfl
@[simp] theorem firesOf_fire (cb : BitVec cbW) : firesOf [.fire cb] = [cb] := rfl

/-! ### Generated samples -/

/-- A legal sample is played as it is; only an illegal one is changed (R86). -/
theorem asSample_toInt {x : Int} (hlow : -32768 ≤ x) (hhigh : x ≤ 32767) : (asSample x).toInt = x := by
  simp only [asSample, wrap, BitVec.toInt_ofInt]
  exact Int.bmod_eq_of_le (by simpa using hlow) (by simpa using Int.lt_add_one_of_le hhigh)

end Sys2Proof.Laws
end

