-- ==== Sys2Proof/Laws/Encoder.lean ====
section
/-! SUPPORT. The encoder's equations. -/

namespace Sys2Proof.Laws

open Sys2Proof.Machine

variable {accW : Nat}

/-- A 1 bit (R53). -/
theorem bitStep_one {acc : BitVec accW} {s : Sample} (h : acc.toInt ≤ s.toInt) :
    bitStep acc s = (true, BitVec.ofInt accW (acc.toInt + (32767 - s.toInt))) := by
  simp [bitStep, sampleValue, wrap, h]

/-- A 0 bit (R53). -/
theorem bitStep_zero {acc : BitVec accW} {s : Sample} (h : s.toInt < acc.toInt) :
    bitStep acc s = (false, BitVec.ofInt accW (acc.toInt + (-32768 - s.toInt))) := by
  simp [bitStep, sampleValue, wrap, not_le.2 h]

@[simp] theorem encodeSteps_zero (s : Sample) (w : BitWord) (acc : BitVec accW) :
    encodeSteps s 0 w acc = (w, acc) := rfl

theorem encodeSteps_succ (s : Sample) (n : Nat) (w : BitWord) (acc : BitVec accW) :
    encodeSteps s (n + 1) w acc =
      encodeSteps s n (shiftIn w (bitStep acc s).1) (bitStep acc s).2 := rfl

/-- The accumulator that bit-steps leave does not depend on the word they shift into. -/
theorem encodeSteps_acc (s : Sample) (n : Nat) (w v : BitWord) (acc : BitVec accW) :
    (encodeSteps s n w acc).2 = (encodeSteps s n v acc).2 := by
  induction n generalizing w v acc with
  | zero => rfl
  | succ n ih => exact ih _ _ _

theorem encodeSample_eq (acc : BitVec accW) (s : Sample) :
    encodeSample acc s = encodeSteps s 32 0#32 acc := rfl

end Sys2Proof.Laws
end

