-- ==== Sys2Proof/Laws/Exec.lean ====
section
/-! SUPPORT. What a command can do, said once: the effect of each command on the block, and how `exec` and `step` lift
it to the state. -/

namespace Sys2Proof.Laws

open Sys2Proof.Machine

variable {accW clkW curW cbW : Nat}

/-! ### The parts of the commands -/

/-- `Enqueue` completes in every state: it drops on a full queue and appends otherwise (R64, R67). -/
theorem enqueue_cases (t : BitVec clkW) (cb : BitVec cbW) (b : Block accW clkW curW cbW) :
    (qFull b ∧ enqueue t cb b = .ok (b, [])) ∨
      (¬ qFull b ∧ enqueue t cb b = .ok ({ b with
        slots := memWrite b.slots (slotIndex b.qin) ⟨t, cb⟩
        qin := increment b.qin }, [])) := by
  by_cases h : qFull b
  · exact .inl ⟨h, if_pos h⟩
  · exact .inr ⟨h, if_neg h⟩

/-- The poll of the head that completes: nothing changes, or the due head fires (R72, R76). -/
theorem pollHead_ok {b c : Block accW clkW curW cbW} {events : List (Event cbW)}
    (h : pollHead b = .ok (c, events)) :
    (c = b ∧ events = [] ∧ headDue b = false) ∨
      ∃ a, headView b = .pending a ∧ due a.target b.sclk ∧ c = (fire a.cb b).1 ∧
        events = [.fire a.cb] := by
  unfold pollHead at h
  unfold headDue
  split at h
  · cases h; simp [*]
  · cases h
  · rename_i a ha
    split at h
    · rename_i hd
      cases h
      exact .inr ⟨a, ha, hd, rfl, rfl⟩
    · rename_i hd
      cases h
      exact .inl ⟨rfl, rfl, by simp [ha, hd]⟩

/-- `EMIT` that completes: it was issued in the host context, and its word is followed by at most the head's firing. -/
theorem emitBlock_ok {x : Sample} {b c : Block accW clkW curW cbW} {events : List (Event cbW)}
    (h : emitBlock x b = .ok (c, events)) :
    b.phase = .idle ∧
      ((c = (emitWord x b).1 ∧ events = [.word (encodeSample b.acc x).1] ∧
          headDue (emitWord x b).1 = false) ∨
        ∃ a, headView b = .pending a ∧ due a.target (increment b.sclk) ∧
          c = (fire a.cb (emitWord x b).1).1 ∧
          events = [.word (encodeSample b.acc x).1, .fire a.cb]) := by
  unfold emitBlock at h
  split at h
  · cases h
  · rename_i hp
    refine ⟨hp, ?_⟩
    unfold continueWith at h
    split at h
    · rename_i b' ev hpoll
      cases h
      rcases pollHead_ok hpoll with ⟨rfl, rfl, hd⟩ | ⟨a, ha, hd, rfl, rfl⟩
      · exact .inl ⟨rfl, rfl, hd⟩
      · exact .inr ⟨a, ha, hd, rfl, rfl⟩
    · cases h

/-- `RET` that completes (R77). -/
theorem retBlock_ok {b c : Block accW clkW curW cbW} {events : List (Event cbW)}
    (h : retBlock b = .ok (c, events)) : b.phase = .firing ∧ c = closeWindow b ∧ events = [] := by
  unfold retBlock at h
  split at h
  · cases h
  · rename_i hp
    cases h
    exact ⟨hp, rfl, rfl⟩

/-! ### `exec` and `step` -/

/-- Every command is its effect on the block, committed. -/
theorem exec_eq_commit (i : Instr) (s : State) : exec i s = commit s (runCommand (commandOf i) s.block) := by
  cases i <;> rfl

/-- A command that answers a next state changed the block and appended events, and nothing else. -/
theorem exec_next_iff {i : Instr} {s t : State} :
    exec i s = .next t ↔ ∃ b events, runCommand (commandOf i) s.block = .ok (b, events) ∧
      t = { s with block := b, trace := s.trace ++ events } := by
  rw [exec_eq_commit, commit_next_iff]

@[simp] theorem step_of_port_nil {s : State} (h : s.port = []) : step s = .next s := by
  simp [step, fetch, h]

/-- Every step that answers a next state: nothing was presented, or the decoded command executed. -/
theorem step_next {s t : State} (h : step s = .next t) :
    (s.port = [] ∧ t = s) ∨ ∃ w rest i, s.port = w :: rest ∧ decode w = .ok i ∧
      exec i { s with port := rest } = .next t := by
  unfold step fetch at h
  cases hp : s.port with
  | nil => simp [hp] at h; exact .inl ⟨rfl, h.symm⟩
  | cons w rest =>
    simp only [hp] at h
    cases hd : decode w with
    | error e => simp [hd] at h
    | ok i => simp only [hd] at h; exact .inr ⟨w, rest, i, rfl, hd, h⟩

/-! ### Runs -/

@[simp] theorem runBlock_nil (b : Block accW clkW curW cbW) : runBlock [] b = .ok (b, []) := rfl

/-- A run that completes: its first command completed, and the rest ran from where that one ended, with its events in
front. -/
theorem runBlock_cons_ok {c : Command clkW cbW} {cs : List (Command clkW cbW)}
    {b d : Block accW clkW curW cbW} {events : List (Event cbW)} :
    runBlock (c :: cs) b = .ok (d, events) ↔
      ∃ b' e f, runCommand c b = .ok (b', e) ∧ runBlock cs b' = .ok (d, f) ∧ events = e ++ f := by
  rcases hc : runCommand c b with r | ⟨b', e⟩
  · simp [runBlock, hc]
  · rcases hr : runBlock cs b' with r | ⟨d', f⟩
    · simp [runBlock, hc, continueWith, hr]
    · simp [runBlock, hc, continueWith, hr, eq_comm, and_assoc]

@[simp] theorem andThen_next (s : State) (f : State → Host.Outcome State Fault Refusal) :
    andThen (.next s) f = f s := rfl
@[simp] theorem andThen_refused (r : Refusal) (f : State → Host.Outcome State Fault Refusal) :
    andThen (.refused r) f = .refused r := rfl
@[simp] theorem runCommands_nil (s : State) : runCommands [] s = .next s := rfl
theorem runCommands_cons (i : Instr) (is : List Instr) (s : State) :
    runCommands (i :: is) s = andThen (exec i s) (runCommands is) := rfl
@[simp] theorem playSamples_nil (h : Handler) (s : State) : playSamples h [] s = .next s := rfl
theorem playSamples_cons (h : Handler) (x : Sample) (xs : List Sample) (s : State) :
    playSamples h (x :: xs) s = andThen (playSample h x s) (playSamples h xs) := rfl

end Sys2Proof.Laws
end

