-- ==== Sys2Proof/Laws/Encoding.lean ====
section
/-! SUPPORT. The fields of a command word and the layout that puts them together. -/

namespace Sys2Proof.Laws

open Sys2Proof

section Layout

variable (op : BitVec 4) (z : BitVec 12) (cb : Tag) (arg : Count) (w : CmdWord)

theorem fieldArg_layout : fieldArg (layout op z cb arg) = arg :=
  (BitVec.extractLsb'_append_eq_of_add_le (xhi := op ++ z ++ cb) (xlo := arg) (by decide)).trans
    BitVec.extractLsb'_eq_self

theorem fieldCb_layout : fieldCb (layout op z cb arg) = cb :=
  (BitVec.extractLsb'_append_eq_of_le (xhi := op ++ z ++ cb) (xlo := arg) (start := 32) (len := 16)
    (by decide)).trans
    ((BitVec.extractLsb'_append_eq_of_add_le (xhi := op ++ z) (xlo := cb) (by decide)).trans
      BitVec.extractLsb'_eq_self)

theorem fieldZ_layout : fieldZ (layout op z cb arg) = z :=
  (BitVec.extractLsb'_append_eq_of_le (xhi := op ++ z ++ cb) (xlo := arg) (start := 48) (len := 12)
    (by decide)).trans
    ((BitVec.extractLsb'_append_eq_of_le (xhi := op ++ z) (xlo := cb) (start := 16) (len := 12)
      (by decide)).trans
      ((BitVec.extractLsb'_append_eq_of_add_le (xhi := op) (xlo := z) (by decide)).trans
        BitVec.extractLsb'_eq_self))

theorem fieldOp_layout : fieldOp (layout op z cb arg) = op :=
  (BitVec.extractLsb'_append_eq_of_le (xhi := op ++ z ++ cb) (xlo := arg) (start := 60) (len := 4)
    (by decide)).trans
    ((BitVec.extractLsb'_append_eq_of_le (xhi := op ++ z) (xlo := cb) (start := 28) (len := 4)
      (by decide)).trans BitVec.extractLsb'_append_eq_left)

/-- The two halves of an operand field (R43). -/
theorem fieldSample_layout (hi lo : BitVec 16) : fieldSample (layout op z cb (hi ++ lo)) = lo :=
  (BitVec.extractLsb'_append_eq_of_add_le (xhi := op ++ z ++ cb) (xlo := hi ++ lo) (by decide)).trans
    ((BitVec.extractLsb'_append_eq_of_add_le (xhi := hi) (xlo := lo) (by decide)).trans
      BitVec.extractLsb'_eq_self)

theorem fieldArgHigh_layout (hi lo : BitVec 16) : fieldArgHigh (layout op z cb (hi ++ lo)) = hi :=
  (BitVec.extractLsb'_append_eq_of_add_le (xhi := op ++ z ++ cb) (xlo := hi ++ lo) (by decide)).trans
    BitVec.extractLsb'_append_eq_left

/-- A word is its four fields (R42). -/
theorem layout_fields : layout (fieldOp w) (fieldZ w) (fieldCb w) (fieldArg w) = w := by
  apply BitVec.eq_of_getLsbD_eq
  intro i hi
  simp only [layout, fieldOp, fieldZ, fieldCb, fieldArg, BitVec.getLsbD_append,
    BitVec.getLsbD_extractLsb']
  grind

/-- An operand field is its two halves (R43). -/
theorem fieldArg_halves : fieldArgHigh w ++ fieldSample w = fieldArg w := by
  apply BitVec.eq_of_getLsbD_eq
  intro i hi
  simp only [fieldArg, fieldArgHigh, fieldSample, BitVec.getLsbD_append, BitVec.getLsbD_extractLsb']
  grind

/-- Masking is done field by field. -/
theorem layout_and (op' : BitVec 4) (z' : BitVec 12) (cb' : Tag) (arg' : Count) :
    layout op z cb arg &&& layout op' z' cb' arg' =
      layout (op &&& op') (z &&& z') (cb &&& cb') (arg &&& arg') :=
  (BitVec.and_append (x₁ := op ++ z ++ cb) (x₂ := op' ++ z' ++ cb')).trans
    (congrArg (· ++ (arg &&& arg'))
      ((BitVec.and_append (x₁ := op ++ z) (x₂ := op' ++ z')).trans
        (congrArg (· ++ (cb &&& cb')) BitVec.and_append)))

theorem fieldOp_and (v : CmdWord) : fieldOp (w &&& v) = fieldOp w &&& fieldOp v :=
  BitVec.extractLsb'_and

end Layout

/-! ### The masks and matches of the opcode table, field by field -/

theorem rowEmit_mask : rowEmit.maskBits = layout 0xF#4 0xFFF#12 0xFFFF#16 (0xFFFF#16 ++ 0#16) := by
  decide
theorem rowSchedAbs_mask : rowSchedAbs.maskBits = layout 0xF#4 0xFFF#12 0#16 0#32 := by decide
theorem rowSchedRel_mask : rowSchedRel.maskBits = layout 0xF#4 0xFFF#12 0#16 0#32 := by decide
theorem rowRet_mask : rowRet.maskBits = layout 0xF#4 0xFFF#12 0xFFFF#16 0xFFFFFFFF#32 := by decide
theorem rowEmit_match : rowEmit.matchBits = layout 0x1#4 0#12 0#16 0#32 := by decide
theorem rowSchedAbs_match : rowSchedAbs.matchBits = layout 0x2#4 0#12 0#16 0#32 := by decide
theorem rowSchedRel_match : rowSchedRel.matchBits = layout 0x3#4 0#12 0#16 0#32 := by decide
theorem rowRet_match : rowRet.matchBits = layout 0x4#4 0#12 0#16 0#32 := by decide

/-- A word that spells a row has the row's opcode, since every mask covers `op`. -/
theorem fieldOp_of_spells {r : OpcodeRow} (hr : r ∈ opcodeRows) {w : CmdWord} (h : spells r w) :
    fieldOp w = fieldOp r.matchBits := by
  have hm : ∀ r ∈ opcodeRows, fieldOp r.maskBits = BitVec.allOnes 4 := by decide
  rw [← h, fieldOp_and, hm r hr, BitVec.and_allOnes]

end Sys2Proof.Laws
end

