-- ==== Sys2Proof/Laws/PerInstr.lean ====
section
/-! SUPPORT. Statements made per instruction: the encoding of a command matches its own row of the opcode table and no
other (R45, R52). -/

namespace Sys2Proof.Laws

open Sys2Proof

/-- The encoder's word spells the command's row, and every row it spells is that one. -/
def RowMatch.Statement (i : Instr) : Prop :=
  spells (rowOf i) (encode i) ∧ ∀ r ∈ opcodeRows, spells r (encode i) → r = rowOf i

/-- Each opcode belongs to one row. -/
theorem row_of_opcode_emit : ∀ r ∈ opcodeRows, 0x1#4 = fieldOp r.matchBits → r = rowEmit := by decide
theorem row_of_opcode_schedAbs : ∀ r ∈ opcodeRows, 0x2#4 = fieldOp r.matchBits → r = rowSchedAbs := by
  decide
theorem row_of_opcode_schedRel : ∀ r ∈ opcodeRows, 0x3#4 = fieldOp r.matchBits → r = rowSchedRel := by
  decide

theorem RowMatch.emit (s : Sample) : RowMatch.Statement (.emit s) := by
  refine ⟨?_, fun r hr h => ?_⟩
  · have e : (0#16 ++ s : Count) &&& (0xFFFF#16 ++ 0#16) = 0#32 :=
      BitVec.and_append.trans (by simp)
    simp only [spells, rowOf, encode, rowEmit_mask, rowEmit_match, layout_and, e]
    rfl
  · have e := fieldOp_of_spells hr h
    rw [encode, fieldOp_layout] at e
    exact row_of_opcode_emit r hr e

theorem RowMatch.schedAbs (t : Count) (cb : Tag) : RowMatch.Statement (.schedAbs t cb) := by
  refine ⟨?_, fun r hr h => ?_⟩
  · simp [spells, rowOf, encode, rowSchedAbs_mask, rowSchedAbs_match, layout_and]
  · have e := fieldOp_of_spells hr h
    rw [encode, fieldOp_layout] at e
    exact row_of_opcode_schedAbs r hr e

theorem RowMatch.schedRel (d : Count) (cb : Tag) : RowMatch.Statement (.schedRel d cb) := by
  refine ⟨?_, fun r hr h => ?_⟩
  · simp [spells, rowOf, encode, rowSchedRel_mask, rowSchedRel_match, layout_and]
  · have e := fieldOp_of_spells hr h
    rw [encode, fieldOp_layout] at e
    exact row_of_opcode_schedRel r hr e

theorem RowMatch.ret : RowMatch.Statement .ret := by
  refine ⟨by decide, by decide⟩

end Sys2Proof.Laws
end

