-- ==== Sys2Proof/Certificates/Slice0/Obligations.lean ====
section
/-! DEFINITION. The statements for the provers, one definition each, listed in OBLIGATIONS.json. -/

open Sys2Proof Sys2Proof.Machine

/-! ### The command word (R42 to R47, R50) -/

/-- R42 to R45: the word that spells a command decodes to that command, whatever its operands. -/
def Obligations.DecodeOfEncode : Prop :=
  ∀ i : Instr, decode (encode i) = .ok i

/-- R46: every word matches exactly one row and decodes to a command of it, or matches none, is one of the listed kinds
and is refused. -/
def Obligations.ReservedWordsRefused : Prop :=
  ∀ w : CmdWord,
    (∀ i, decode w = .ok i →
      spells (rowOf i) w ∧ (∀ r ∈ opcodeRows, spells r w → r = rowOf i) ∧ encode i = w) ∧
    ((∃ e, decode w = .error e) ↔ ∀ r ∈ opcodeRows, ¬ spells r w) ∧
    ((∃ e, decode w = .error e) ↔
      fieldOp w = 0 ∨ 5 ≤ (fieldOp w).toNat ∨ fieldZ w ≠ 0 ∨
        (fieldOp w = 1 ∧ (fieldCb w ≠ 0 ∨ fieldArgHigh w ≠ 0)) ∨
        (fieldOp w = 4 ∧ w.extractLsb' 0 60 ≠ 0)) ∧
    ∀ (s : State) (rest : List CmdWord), s.port = w :: rest → (∃ e, decode w = .error e) →
      step s = .refused .reservedEncoding

/-- R43: format E, by its fields and by its mask; the operand is the field as a signed 16-bit integer. -/
def Obligations.FormatEDecodes : Prop :=
  ∀ (w : CmdWord) (x : Sample),
    (decode w = .ok (.emit x) ↔
      fieldOp w = 0x1#4 ∧ fieldZ w = 0 ∧ fieldCb w = 0 ∧ fieldArgHigh w = 0 ∧ fieldSample w = x) ∧
    (decode w = .ok (.emit x) ↔
      w &&& 0xFFFFFFFFFFFF0000#64 = 0x1000000000000000#64 ∧ x = w.extractLsb' 0 16) ∧
    sampleValue x = if x.toNat < 32768 then (x.toNat : Int) else (x.toNat : Int) - 65536

/-- R44: format S, by its fields and by its masks; `d` is added to the clock modulo `2^32`, so that the two's complement
of `n` asks for `n` samples back. -/
def Obligations.FormatSDecodes : Prop :=
  ∀ (w : CmdWord) (n : Count) (cb : Tag),
    (decode w = .ok (.schedAbs n cb) ↔
      fieldOp w = 0x2#4 ∧ fieldZ w = 0 ∧ fieldCb w = cb ∧ fieldArg w = n) ∧
    (decode w = .ok (.schedRel n cb) ↔
      fieldOp w = 0x3#4 ∧ fieldZ w = 0 ∧ fieldCb w = cb ∧ fieldArg w = n) ∧
    (decode w = .ok (.schedAbs n cb) ↔
      w &&& 0xFFFF000000000000#64 = 0x2000000000000000#64 ∧ cb = w.extractLsb' 32 16 ∧
        n = w.extractLsb' 0 32) ∧
    (decode w = .ok (.schedRel n cb) ↔
      w &&& 0xFFFF000000000000#64 = 0x3000000000000000#64 ∧ cb = w.extractLsb' 32 16 ∧
        n = w.extractLsb' 0 32) ∧
    ∀ (k : Count) (m : Nat), relTarget k (wrap 32 (-(m : Int))) = wrap 32 ((k.toNat : Int) - m)

/-- R45: `RET` is one word, every bit below the opcode zero. -/
def Obligations.FormatZDecodes : Prop :=
  ∀ w : CmdWord,
    (decode w = .ok .ret ↔ fieldOp w = 0x4#4 ∧ fieldZ w = 0 ∧ fieldCb w = 0 ∧ fieldArg w = 0) ∧
    (decode w = .ok .ret ↔ w &&& 0xFFFFFFFFFFFFFFFF#64 = 0x4000000000000000#64)

/-- R47: the worked encodings, valid and invalid. -/
def Obligations.WorkedEncodings : Prop :=
  decode 0x1000000000000000#64 = .ok (.emit 0) ∧
  decode 0x100000000000FFFF#64 = .ok (.emit (wrap 16 (-1))) ∧
  decode 0x1000000000008000#64 = .ok (.emit (wrap 16 (-32768))) ∧
  decode 0x1000000000007FFF#64 = .ok (.emit 32767) ∧
  decode 0x1000000000004000#64 = .ok (.emit 16384) ∧
  decode 0x200000B100000002#64 = .ok (.schedAbs 2 0xB1) ∧
  decode 0x2000000180000000#64 = .ok (.schedAbs 0x80000000 1) ∧
  decode 0x300000A100000003#64 = .ok (.schedRel 3 0xA1) ∧
  decode 0x30000007FFFFFFFF#64 = .ok (.schedRel (wrap 32 (-1)) 7) ∧
  decode 0x4000000000000000#64 = .ok .ret ∧
  decode 0x0000000000000000#64 = .error .opcodeZero ∧
  decode 0x5000000000000000#64 = .error .opcodeReserved ∧
  decode 0x1000000000010000#64 = .error .emitArgHigh ∧
  decode 0x1000000100000000#64 = .error .emitTag ∧
  decode 0x2001000000000000#64 = .error .zNonzero ∧
  decode 0x4000000000000001#64 = .error .retOperand

/-- R50: a line within the operand ranges assembles to a command that disassembles to it; a line outside is refused;
every command has its line. -/
def Obligations.AssemblerRoundTrip : Prop :=
  (∀ a : Asm, asmWellFormed a = true → ∃ i, assemble a = some i ∧ disassemble i = a) ∧
  (∀ a : Asm, asmWellFormed a = false → assemble a = none) ∧
  ∀ i : Instr, assemble (disassemble i) = some i

/-! ### One transaction (R10, R36, R41) -/

/-- R10, R41: a step accepts the next word of the port and, if it decodes, is the execution of its command on the state
with that word taken; with no word presented nothing happens (the model's choice, log entry 1). -/
def Obligations.StepRunsDecodedCommand : Prop :=
  (∀ (s : State) (w : CmdWord) (rest : List CmdWord) (i : Instr), s.port = w :: rest →
    decode w = .ok i → step s = exec i { s with port := rest }) ∧
  ∀ s : State, s.port = [] → step s = .next s

/-- R36: a step takes at most the first word of the port, and only adds to the output trace. -/
def Obligations.StepOnlyExtendsTrace : Prop :=
  ∀ s t : State, step s = .next t → s.trace <+: t.trace ∧ t.port = s.port.tail

/-- R36, R41: a list of commands encoded at the port runs as the commands themselves, one after another, and leaves the
words behind them. -/
def Obligations.PortRunsCommandsInOrder : Prop :=
  ∀ (is : List Instr) (behind : List CmdWord) (s : State),
    Host.Core.run Sys2Proof.core is.length { s with port := is.map encode ++ behind } =
      runCommands is { s with port := behind }

/-! ### The encoder (R53 to R63) -/

/-- R53: the bit is 1 exactly when the sample is at or above the accumulator, and the accumulator gains the distance to
the full-scale value of that bit, wrapped. -/
def Obligations.BitStepRule : Prop :=
  (∀ (n : Nat) (acc : BitVec n) (s : Sample),
    (s.toInt ≥ acc.toInt →
      bitStep acc s = (true, BitVec.ofInt n (acc.toInt + (32767 - s.toInt)))) ∧
    (¬ s.toInt ≥ acc.toInt →
      bitStep acc s = (false, BitVec.ofInt n (acc.toInt + (-32768 - s.toInt)))) ∧
    0 ≤ 32767 - s.toInt ∧ 32767 - s.toInt ≤ 65535 ∧
    -65535 ≤ -32768 - s.toInt ∧ -32768 - s.toInt ≤ 0) ∧
  bitStep (0#32) 0 = (true, 32767#32) ∧ bitStep (32767#32) 0 = (false, BitVec.ofInt 32 (-1))

/-- R13: the range -32767 .. 32767 is kept by a bit-step with any sample, at any width from 16, without a wrap; so every
reachable state has its accumulator in it. -/
def Obligations.AccumulatorRange : Prop :=
  (∀ (n : Nat) (acc : BitVec n) (s : Sample), 16 ≤ n → accInRange acc →
    accInRange (bitStep acc s).2 ∧
      (bitStep acc s).2.toInt =
        acc.toInt + ((if s.toInt ≥ acc.toInt then 32767 else -32768) - s.toInt)) ∧
  ∀ s : State, Reachable s → accInRange s.block.acc

/-- R54: step `i` of the 32 is taken on the accumulator that `i` steps leave, and its bit is bit `31 - i` of the word; the
rule's three examples. -/
def Obligations.EncodeBitOrder : Prop :=
  (∀ (n : Nat) (acc : BitVec n) (s : Sample),
    (∀ i < 32, (encodeSample acc s).1.getLsbD (31 - i) =
      (bitStep ((fun a => (bitStep a s).2)^[i] acc) s).1) ∧
    (encodeSample acc s).2 = (fun a => (bitStep a s).2)^[32] acc) ∧
  encodeSample (0#32) 0 = (0xAAAAAAAA#32, wrap 32 (-16)) ∧
  encodeSample (0#32) (wrap 16 (-1)) = (0x55555555#32, 16#32) ∧
  encodeSample (0#32) 16384 = (0xDDDDDDDD#32, wrap 32 (-24))

/-- R56: the extremes, from every accumulator of the reachable range. -/
def Obligations.EncodeExtremes : Prop :=
  ∀ acc : BitVec 32, accInRange acc →
    encodeSample acc (wrap 16 32767) = (0xFFFFFFFF#32, acc) ∧
    encodeSample acc (wrap 16 (-32768)) = (0x00000000#32, acc)

/-- R57: the ones of a word account for the accumulator's change, and are confined by the range. -/
def Obligations.OnesCountIdentity : Prop :=
  (∀ (acc : BitVec 32) (s : Sample), accInRange acc →
    (encodeSample acc s).2.toInt - acc.toInt =
      (onesIn (encodeSample acc s).1 : Int) * 65535 - 32 * (s.toInt + 32768) ∧
    |(onesIn (encodeSample acc s).1 : Int) * 65535 - 32 * (s.toInt + 32768) + acc.toInt| ≤ 32767) ∧
  encodeSample (0#32) 12345 = (0xB76DB76D#32, wrap 32 (-1846)) ∧ onesIn 0xB76DB76D#32 = 22

/-- R59: the density of ones over `n` words of one sample, exactly, and within one bit of the sample's place in the
range. -/
def Obligations.DutyCycle : Prop :=
  ∀ (acc : BitVec 32) (s : Sample) (n : Nat), accInRange acc → 0 < n →
    let ones : ℚ := (((encodeRun acc (List.replicate n s)).1.map onesIn).sum : ℕ)
    let bits : ℚ := 32 * n
    let accEnd : ℚ := ((encodeRun acc (List.replicate n s)).2.toInt : ℤ)
    ones / bits = ((s.toInt : ℚ) + 32768) / 65535 + (accEnd - acc.toInt) / (65535 * bits) ∧
      |ones / bits - ((s.toInt : ℚ) + 32768) / 65535| < 1 / bits

/-- R63: outside the range. Above it every step outputs 0 and falls by `s + 32768`, never below -32767, back inside after
exactly `ceil((acc - 32767) / (s + 32768))` steps; below it the mirror image; the matching extreme never moves it. -/
def Obligations.OutOfRangeRecovery : Prop :=
  (∀ (acc : BitVec 32) (s : Sample), 32767 < acc.toInt →
    bitStep acc s = (false, BitVec.ofInt 32 (acc.toInt - (s.toInt + 32768))) ∧
    (s.toInt = -32768 → (bitStep acc s).2 = acc) ∧
    (-32768 < s.toInt → ∀ m : Nat,
      (accInRange ((fun a => (bitStep a s).2)^[m] acc) ↔
        (acc.toInt - 32767 : ℚ) / (s.toInt + 32768) ≤ m))) ∧
  (∀ (acc : BitVec 32) (s : Sample), acc.toInt < -32767 →
    bitStep acc s = (true, BitVec.ofInt 32 (acc.toInt + (32767 - s.toInt))) ∧
    (s.toInt = 32767 → (bitStep acc s).2 = acc) ∧
    (s.toInt < 32767 → ∀ m : Nat,
      (accInRange ((fun a => (bitStep a s).2)^[m] acc) ↔
        (-32767 - acc.toInt : ℚ) / (32767 - s.toInt) ≤ m)))

/-- R20, R58: for every accumulator width from 16 and cursor width from 5, a list of commands from reset produces the same
events, the same refusal and the same observable state as at the default 32 of both, whatever `CLK_W`, `CB_W` and
`ACC_RESET` are. -/
def Obligations.WidthIndependence : Prop :=
  ∀ (accW clkW curW cbW : Nat) (accReset : Int) (cs : List (Command clkW cbW)), 16 ≤ accW → 5 ≤ curW →
    accResetLegal accReset →
    sameResult sameObservable (runBlock cs (Block.resetWith accW clkW curW cbW accReset))
      (runBlock cs (Block.resetWith 32 clkW 32 cbW accReset))

/-- R5, R13, R25, R30: at all widths that R5 admits and for every legal `ACC_RESET` the block after reset meets the
invariant, every level-A command keeps it, and under it no command meets an unwritten slot. -/
def Obligations.CommandKeepsInvariant : Prop :=
  ∀ (accW clkW curW cbW : Nat), 16 ≤ accW → 2 ≤ clkW → 5 ≤ curW → 1 ≤ cbW →
    (∀ accReset : Int, accResetLegal accReset →
      blockInv (Block.resetWith accW clkW curW cbW accReset)) ∧
    ∀ (c : Command clkW cbW) (b : Block accW clkW curW cbW), blockInv b →
      runCommand c b ≠ .error .unwrittenSlot ∧
      ∀ b' events, runCommand c b = .ok (b', events) → blockInv b'

/-- R82: the word and the accumulator do not depend on the scheduler, nor the scheduler and its firings on the encoder or
the samples, at any widths. -/
def Obligations.EncoderAndSchedulerIndependent : Prop :=
  ∀ accW clkW curW cbW : Nat,
  (∀ (x : Sample) (b c b' c' : Block accW clkW curW cbW) (e f : List (Event cbW)), b.acc = c.acc →
    emitBlock x b = .ok (b', e) → emitBlock x c = .ok (c', f) →
      b'.acc = c'.acc ∧ wordsOf e = wordsOf f) ∧
  (∀ (x y : Sample) (b c b' : Block accW clkW curW cbW) (e : List (Event cbW)), sameScheduler b c →
    emitBlock x b = .ok (b', e) →
      ∃ c' f, emitBlock y c = .ok (c', f) ∧ sameScheduler b' c' ∧ firesOf e = firesOf f) ∧
  ∀ (i : Command clkW cbW) (b c b' : Block accW clkW curW cbW) (e : List (Event cbW)),
    (∀ x, i ≠ .emit x) → sameScheduler b c → runCommand i b = .ok (b', e) →
      b'.acc = b.acc ∧ ∃ c', runCommand i c = .ok (c', e) ∧ sameScheduler b' c'

/-! ### The commands' results (R64 to R66, R72, R77) -/

/-- R72: `EMIT` in the host context, with an empty queue, with a head not due and with a due head; refused in a fire
window. The clock of the test is the incremented one. The rule's example from reset. -/
def Obligations.EmitResult : Prop :=
  (∃ t, exec (.emit 0) State.reset = .next t ∧ t.trace = [.word 0xAAAAAAAA#32] ∧
    t.block.acc = wrap 32 (-16) ∧ t.block.sclk = 1 ∧ t.block.phase = .idle) ∧
  ∀ (x : Sample) (s : State),
    (s.block.phase = .idle → s.block.qin = s.block.qout →
      exec (.emit x) s = .next { s with
        block := { s.block with
          acc := (encodeSample s.block.acc x).2
          sclk := s.block.sclk + 1 }
        trace := s.trace ++ [.word (encodeSample s.block.acc x).1] }) ∧
    (∀ a, s.block.phase = .idle → s.block.qin ≠ s.block.qout →
      memRead s.block.slots (slotIndex s.block.qout) = some a →
      ¬ (a.target - (s.block.sclk + 1)).toInt ≤ 0 →
      exec (.emit x) s = .next { s with
        block := { s.block with
          acc := (encodeSample s.block.acc x).2
          sclk := s.block.sclk + 1 }
        trace := s.trace ++ [.word (encodeSample s.block.acc x).1] }) ∧
    (∀ a, s.block.phase = .idle → s.block.qin ≠ s.block.qout →
      memRead s.block.slots (slotIndex s.block.qout) = some a →
      (a.target - (s.block.sclk + 1)).toInt ≤ 0 →
      exec (.emit x) s = .next { s with
        block := { s.block with
          acc := (encodeSample s.block.acc x).2
          sclk := s.block.sclk + 1
          phase := .firing }
        trace := s.trace ++ [.word (encodeSample s.block.acc x).1, .fire a.cb] }) ∧
    (s.block.phase = .firing → exec (.emit x) s = .refused .emitInFireWindow)

/-- R64: the enqueue step at any widths: silent drop at 16 pending, otherwise one slot and the in cursor. In every
reachable state the fullness test is the same as `= 16`. -/
def Obligations.EnqueueStep : Prop :=
  (∀ s : State, Reachable s →
    (16 ≤ (s.block.qin - s.block.qout).toNat ↔ (s.block.qin - s.block.qout).toNat = 16)) ∧
  ∀ (accW clkW curW cbW : Nat) (t : BitVec clkW) (cb : BitVec cbW) (b : Block accW clkW curW cbW),
    (16 ≤ (b.qin - b.qout).toNat → enqueue t cb b = .ok (b, [])) ∧
    (¬ 16 ≤ (b.qin - b.qout).toNat →
      ∃ c, enqueue t cb b = .ok (c, []) ∧ c.acc = b.acc ∧ c.sclk = b.sclk ∧ c.qout = b.qout ∧
        c.phase = b.phase ∧ c.qin = b.qin + BitVec.ofNat curW 1 ∧
        memRead c.slots (slotIndex b.qin) = some ⟨t, cb⟩ ∧
        ∀ i, i ≠ slotIndex b.qin → memRead c.slots i = memRead b.slots i)

/-- R65, R69: `SCHED_ABS` completes in both phases, storing its target as given, or dropping it on a full queue. -/
def Obligations.SchedAbsResult : Prop :=
  ∀ (t : Count) (cb : Tag) (s : State),
    (16 ≤ (s.block.qin - s.block.qout).toNat → exec (.schedAbs t cb) s = .next s) ∧
    (¬ 16 ≤ (s.block.qin - s.block.qout).toNat →
      exec (.schedAbs t cb) s = .next { s with
        block := { s.block with
          slots := memWrite s.block.slots (slotIndex s.block.qin) ⟨t, cb⟩
          qin := s.block.qin + 1 } })

/-- R66, R69: `SCHED_REL` completes in both phases, its target the present clock plus the delta, modulo `2^32`. -/
def Obligations.SchedRelResult : Prop :=
  ∀ (d : Count) (cb : Tag) (s : State),
    (16 ≤ (s.block.qin - s.block.qout).toNat → exec (.schedRel d cb) s = .next s) ∧
    (¬ 16 ≤ (s.block.qin - s.block.qout).toNat →
      exec (.schedRel d cb) s = .next { s with
        block := { s.block with
          slots := memWrite s.block.slots (slotIndex s.block.qin)
            ⟨BitVec.ofNat 32 (s.block.sclk.toNat + d.toNat), cb⟩
          qin := s.block.qin + 1 } })

/-- R77: `RET` in a fire window reclaims the head and closes the window; outside one it is refused. The pending count
falls by one and the next oldest action is the head. -/
def Obligations.RetResult : Prop :=
  ∀ s : State,
    (s.block.phase = .firing →
      exec .ret s = .next { s with
        block := { s.block with qout := s.block.qout + 1, phase := .idle } }) ∧
    (s.block.phase = .firing → blockInv s.block → ∀ t, exec .ret s = .next t →
      pendingCount t.block + 1 = pendingCount s.block ∧
      pendingActions t.block = (pendingActions s.block).tail) ∧
    (s.block.phase = .idle → exec .ret s = .refused .retOutsideFireWindow)

/-- R110: which command executes in which context. In states of the invariant a legal command completes. -/
def Obligations.ContextTable : Prop :=
  ∀ (i : Instr) (s : State),
    (legalIn s.block.phase i = true → blockInv s.block → ∃ t, exec i s = .next t) ∧
    (legalIn s.block.phase i = false → exec i s = .refused
      (match s.block.phase with | .idle => .retOutsideFireWindow | .firing => .emitInFireWindow))

/-! ### Frames -/

/-- R72, R37: what `EMIT` leaves alone: both cursors, every slot, the port; and it appends one word, then at most one
firing. -/
def Obligations.EmitFrame : Prop :=
  ∀ (x : Sample) (s t : State), exec (.emit x) s = .next t →
    t.block.qin = s.block.qin ∧ t.block.qout = s.block.qout ∧
    (∀ i, memRead t.block.slots i = memRead s.block.slots i) ∧
    t.block.slots = s.block.slots ∧ t.port = s.port ∧ t.block.sclk = s.block.sclk + 1 ∧
    ((t.block.phase = .idle ∧ ∃ w, t.trace = s.trace ++ [.word w]) ∨
      (t.block.phase = .firing ∧ ∃ w cb, t.trace = s.trace ++ [.word w, .fire cb]))

/-- R64: what both scheduling commands leave alone: accumulator, clock, out cursor, phase, port, trace, and every slot but
the one at the in cursor; a dropped one leaves everything alone. -/
def Obligations.SchedFrame : Prop :=
  ∀ (i : Instr) (s t : State), ((∃ n cb, i = .schedAbs n cb) ∨ ∃ n cb, i = .schedRel n cb) →
    exec i s = .next t →
    t.block.acc = s.block.acc ∧ t.block.sclk = s.block.sclk ∧ t.block.qout = s.block.qout ∧
    t.block.phase = s.block.phase ∧ t.port = s.port ∧ t.trace = s.trace ∧
    (∀ j, j ≠ slotIndex s.block.qin → memRead t.block.slots j = memRead s.block.slots j) ∧
    (16 ≤ pendingCount s.block → t = s)

/-- R77: what `RET` leaves alone: accumulator, clock, in cursor, every slot, port and trace. -/
def Obligations.RetFrame : Prop :=
  ∀ s t : State, exec .ret s = .next t →
    t.block.acc = s.block.acc ∧ t.block.sclk = s.block.sclk ∧ t.block.qin = s.block.qin ∧
    (∀ i, memRead t.block.slots i = memRead s.block.slots i) ∧
    t.block.slots = s.block.slots ∧ t.port = s.port ∧ t.trace = s.trace

/-! ### Invariants -/

/-- R25: the state after reset meets the invariant. -/
def Obligations.ResetMeetsInvariant : Prop :=
  blockInv State.reset.block ∧ clockCountsWords State.reset ∧ cursorCountsFires State.reset

/-- R13, R17, R18, R30: every step keeps the invariant. -/
def Obligations.StepKeepsInvariant : Prop :=
  ∀ s t : State, blockInv s.block → step s = .next t → blockInv t.block

/-- Every step keeps the strictly rising list that the model holds the slots in, in any state. That form is the model's own
choice (log entry 5, DESIGN CHOICE), no rule of the spec: R27 gives the slots, and knows no canonical form. -/
def Obligations.StepKeepsMemoryForm : Prop :=
  ∀ s t : State, Memory.wf s.block.slots → step s = .next t → Memory.wf t.block.slots

/-- R81: every step keeps the clock equal to the number of words output, and so every reachable state has it. -/
def Obligations.ClockCountsEmits : Prop :=
  (∀ s t : State, clockCountsWords s → step s = .next t → clockCountsWords t) ∧
  ∀ s : State, Reachable s → clockCountsWords s

/-- R22, R75, R77: every step keeps the firings equal to the reclaimed actions and the one being executed, so each
firing has its one `RET`. -/
def Obligations.CursorCountsFirings : Prop :=
  (∀ s t : State, cursorCountsFires s → step s = .next t → cursorCountsFires t) ∧
  ∀ s : State, Reachable s → cursorCountsFires s

/-- R30: in every execution from reset the slot `EMIT` would read is written, and no step stops on an unwritten one; in
an unreachable state where it is not written, `EMIT` is refused. -/
def Obligations.NoUnwrittenSlotRead : Prop :=
  (∀ s : State, Reachable s →
    (s.block.qin ≠ s.block.qout →
      ∃ a, memRead s.block.slots (slotIndex s.block.qout) = some a) ∧
    step s ≠ .refused .unwrittenSlot) ∧
  ∀ (x : Sample) (s : State), s.block.phase = .idle → s.block.qin ≠ s.block.qout →
    memRead s.block.slots (slotIndex s.block.qout) = none →
    exec (.emit x) s = .refused .unwrittenSlot

/-- R99, R100: no step faults, and in states of the invariant the only refusals are an invalid word, `EMIT` in a fire
window and `RET` outside one. -/
def Obligations.RefusalsAreClosed : Prop :=
  (∀ (s : State) (f : Fault), step s ≠ .fault f) ∧
  ∀ (s : State) (r : Refusal), blockInv s.block → step s = .refused r →
    ∃ w rest, s.port = w :: rest ∧
      ((r = .reservedEncoding ∧ ∃ e, decode w = .error e) ∨
        (r = .emitInFireWindow ∧ s.block.phase = .firing ∧ ∃ x, decode w = .ok (.emit x)) ∨
        (r = .retOutsideFireWindow ∧ s.block.phase = .idle ∧ decode w = .ok .ret))

/-! ### Time and the queue (R7, R17, R68 to R81) -/

/-- R7: the signed difference as an integer, and due means at most `2^(CLK_W-1)` counts past the target, at any width
from 2. -/
def Obligations.DueWindow : Prop :=
  ∀ (n : Nat) (t k : BitVec n), 2 ≤ n →
    sdiff t k = Int.bmod ((t.toNat : Int) - k.toNat) (2 ^ n) ∧
    (due t k ↔ (k - t).toNat ≤ 2 ^ (n - 1))

/-- R73: the rule's table of cases. -/
def Obligations.DueCases : Prop :=
  sdiff 5#32 4#32 = 1 ∧ sdiff 5#32 5#32 = 0 ∧ sdiff 5#32 6#32 = -1 ∧
  sdiff 0#32 0xFFFFFFFF#32 = 1 ∧ sdiff 0xFFFFFFFF#32 0#32 = -1 ∧ sdiff 1#32 0xFFFFFFFF#32 = 2 ∧
  sdiff 0x80000000#32 0#32 = -2147483648 ∧ sdiff 0x80000001#32 0#32 = -2147483647 ∧
  sdiff 0x7FFFFFFF#32 0#32 = 2147483647 ∧ sdiff 0#32 0x7FFFFFFF#32 = -2147483647 ∧
  sdiff 0#32 0x80000000#32 = -2147483648 ∧ sdiff 0#32 0x80000001#32 = 2147483647

/-- R70, R73: a target `a` ahead of the clock, `1 <= a <= 2^31`, becomes due after exactly `a` counts; one at the clock,
behind it, or further ahead is due at the next count. -/
def Obligations.TargetDistance : Prop :=
  ∀ t k : Count,
    (1 ≤ (t - k).toNat → (t - k).toNat ≤ 2147483648 → ∀ j : Nat, 1 ≤ j → j ≤ (t - k).toNat →
      (due t (k + BitVec.ofNat 32 j) ↔ j = (t - k).toNat)) ∧
    ((t - k).toNat = 0 ∨ 2147483649 ≤ (t - k).toNat → due t (k + 1))

/-- R17, R64, R68, R72, R77: the block behaves as a clock, an integer accumulator and a first-in first-out list of at most
16 actions, with the same events and the same refusals. -/
def Obligations.RefinesQueueView : Prop :=
  ∀ (i : Instr) (b : Block 32 32 32 16), blockInv b →
    sameResult (fun c v => viewOf c = v) (runCommand (commandOf i) b) (viewCommand i (viewOf b))

/-- R26, R116: a pending action leaves the queue only from its head and only by `RET`; otherwise the pending actions only
gain at the end. -/
def Obligations.PendingLeavesOnlyByRet : Prop :=
  ∀ s t : State, blockInv s.block → step s = .next t →
    pendingActions s.block <+: pendingActions t.block ∨
      (s.block.phase = .firing ∧ (∃ w rest, s.port = w :: rest ∧ decode w = .ok .ret) ∧
        pendingActions t.block = (pendingActions s.block).tail)

/-- R74: one `EMIT` fires at most one action, and nothing fires until the next `EMIT`. -/
def Obligations.AtMostOneFiringPerEmit : Prop :=
  ∀ (i : Instr) (s t : State), exec i s = .next t →
    (∀ x, i = .emit x → (firesOf t.trace).length ≤ (firesOf s.trace).length + 1) ∧
    ((∀ x, i ≠ .emit x) → firesOf t.trace = firesOf s.trace)

/-- R29, R80: `EMIT` looks at the head slot and at no other: two blocks that differ only in other slots give the same
events, the same refusal and the same next registers. -/
def Obligations.OnlyHeadInspected : Prop :=
  ∀ (x : Sample) (b : Block 32 32 32 16) (m : Memory 32 16),
    memRead m (slotIndex b.qout) = memRead b.slots (slotIndex b.qout) →
    emitBlock x { b with slots := m } =
      (emitBlock x b).map fun r => ({ r.1 with slots := m }, r.2)

/-- R75: with the queue empty, `SCHED_REL d, cb` with `1 <= d <= 2^31` fires at `EMIT` number `d` and at no other; with
`d = 0` it fires at the first. -/
def Obligations.RelativeActionFiresOnTime : Prop :=
  ∀ (d : Count) (cb : Tag) (s : State) (xs : List Sample),
    s.block.phase = .idle → s.block.qin = s.block.qout → d.toNat ≤ 2147483648 →
    xs.length = max d.toNat 1 →
    ∃ t, runCommands (.schedRel d cb :: xs.map .emit) s = .next t ∧ t.block.phase = .firing ∧
      firesOf t.trace = firesOf s.trace ++ [cb] ∧
      t.block.sclk = s.block.sclk + BitVec.ofNat 32 xs.length ∧
      (∀ ys, ys <+: xs → ys.length < xs.length →
        ∃ u, runCommands (.schedRel d cb :: ys.map .emit) s = .next u ∧ u.block.phase = .idle ∧
          firesOf u.trace = firesOf s.trace) ∧
      ∀ zs : List Sample, ∃ v, runCommands (.ret :: zs.map .emit) t = .next v ∧
        firesOf v.trace = firesOf t.trace

/-- R79: `m` actions at the front of the queue that are due at the next `EMIT`, and stay inside the due window for `m`
counts, fire at `m` successive `EMIT`s in queue order. The premise on the window is the model's reading of the rule, log
entry 20. -/
def Obligations.BacklogFiresOnePerSample : Prop :=
  ∀ (s : State) (xs : List Sample), blockInv s.block → s.block.phase = .idle →
    xs.length ≤ (pendingActions s.block).length →
    (∀ a ∈ (pendingActions s.block).take xs.length,
      (s.block.sclk + 1 - a.target).toNat + xs.length ≤ 2147483649) →
    ∃ t, runCommands (xs.flatMap fun x => [.emit x, .ret]) s = .next t ∧
      firesOf t.trace =
        firesOf s.trace ++ ((pendingActions s.block).take xs.length).map Action.cb ∧
      pendingActions t.block = (pendingActions s.block).drop xs.length

/-- R69: in a fire window with 16 pending every scheduling command is dropped; with fewer it is appended behind them and
the action being executed keeps its slot. -/
def Obligations.NestedScheduling : Prop :=
  ∀ (i : Instr) (target : Count) (cb : Tag) (s : State), blockInv s.block →
    s.block.phase = .firing →
    (i = .schedAbs target cb ∨ i = .schedRel (target - s.block.sclk) cb) →
    (pendingCount s.block = 16 → exec i s = .next s) ∧
    (pendingCount s.block < 16 → ∃ t, exec i s = .next t ∧
      pendingActions t.block = pendingActions s.block ++ [⟨target, cb⟩] ∧
      memRead t.block.slots (slotIndex t.block.qout) =
        memRead s.block.slots (slotIndex s.block.qout))

/-- R67, R68, R98: requests are kept in issue order until 16 are pending, and every one after that is dropped without a
trace; the prior schedule stays as it was. -/
def Obligations.FullQueueDropsNewest : Prop :=
  ∀ (qs : List SchedRequest) (s : State), blockInv s.block →
    ∃ t, runCommands (qs.map requestCommand) s = .next t ∧ t.trace = s.trace ∧
      pendingActions t.block =
        (pendingActions s.block ++ qs.map (requestAction s.block.sclk)).take 16

/-! ### Contexts (R76, R78, R106 to R108) -/

/-- R76, R78, R106, R108: a fire window opens only by an `EMIT` that delivers a `FIRE` as its last event, and closes only
by `RET`; until then it stays open. -/
def Obligations.FireWindowProtocol : Prop :=
  ∀ (i : Instr) (s t : State), exec i s = .next t →
    (s.block.phase = .idle → t.block.phase = .firing →
      ∃ x cb, i = .emit x ∧ t.trace.getLast? = some (.fire cb)) ∧
    (s.block.phase = .firing → (t.block.phase = .idle ↔ i = .ret))

/-- R107: in a fire window any finite list of scheduling commands and then `RET` completes, with no output event, the
clock and accumulator as they were, one action reclaimed and the host context back. -/
def Obligations.CallbackAlwaysReturns : Prop :=
  ∀ (qs : List SchedRequest) (s : State), blockInv s.block → s.block.phase = .firing →
    ∃ t, runCommands (qs.map requestCommand ++ [.ret]) s = .next t ∧ t.block.phase = .idle ∧
      t.trace = s.trace ∧ t.block.acc = s.block.acc ∧ t.block.sclk = s.block.sclk ∧
      t.block.qout = s.block.qout + 1 ∧ blockInv t.block

/-- R82, R96: samples played through `EMIT` complete whatever the handler schedules; the clock advances by their number
and the words are the encoder's on those samples. -/
def Obligations.PlayingCompletes : Prop :=
  ∀ (h : Handler) (xs : List Sample) (s : State), blockInv s.block → s.block.phase = .idle →
    ∃ t, playSamples h xs s = .next t ∧ blockInv t.block ∧ t.block.phase = .idle ∧
      t.block.sclk = s.block.sclk + BitVec.ofNat 32 xs.length ∧
      wordsOf t.trace = wordsOf s.trace ++ (encodeRun s.block.acc xs).1 ∧
      t.block.acc = (encodeRun s.block.acc xs).2

/-- R25, R117, R118: the reset input sets every register and empties the queue without an event; a first `EMIT` of the
negative rail then outputs zeros and leaves the accumulator at 0. The clause that every slot reads unwritten after `rst` from
any state is the model's choice (log entry 11, DEDUCED): R25 also says that reset does not clear the array. -/
def Obligations.ResetInput : Prop :=
  ∀ s : State,
    (applyRst s).block.acc = 0 ∧ (applyRst s).block.sclk = 0 ∧ (applyRst s).block.qin = 0 ∧
    (applyRst s).block.qout = 0 ∧ (applyRst s).block.phase = .idle ∧
    (∀ i, memRead (applyRst s).block.slots i = none) ∧ (applyRst s).trace = s.trace ∧
    ∃ t, exec (.emit (wrap 16 (-32768))) (applyRst s) = .next t ∧
      t.trace = s.trace ++ [.word 0] ∧ t.block.acc = 0 ∧ t.block.sclk = 1

/-! ### The generators (R84 to R94) -/

/-- R84: `RAMP_IN` is 2048 samples, `S_MIN + 16 i`. -/
def Obligations.RampInSamples : Prop :=
  rampIn.length = 2048 ∧ ∀ i < 2048, rampIn.getD i 0 = -32768 + 16 * (i : Int)

/-- R85: `RAMP_OUT` is 2048 samples, `-16 - 16 i`, and is `RAMP_IN` reversed. -/
def Obligations.RampOutSamples : Prop :=
  rampOut.length = 2048 ∧ (∀ i < 2048, rampOut.getD i 0 = -16 - 16 * (i : Int)) ∧
    rampOut = rampIn.reverse

/-- R86: whatever the increment within R5's constraint, a ramp-in conforms, starts at the rail and does not fall; a
ramp-out conforms and does not rise (for increments to 16, beyond which R85's formula leaves the range, log entry 17). That a
ramp-out of an increment other than 16 is R85's formula and not `RAMP_IN` reversed is the model's choice (log entry 25, DESIGN
CHOICE). -/
def Obligations.RampsConform : Prop :=
  (∀ n : Nat, n * 2048 ≤ 65536 → conformsToRamp n (rampInWith n) ∧
    (rampInWith n).head? = some (-32768) ∧ (rampInWith n).Pairwise (· ≤ ·)) ∧
  ∀ n : Nat, n ≤ 16 → conformsToRamp (-n) (rampOutWith n) ∧ (rampOutWith n).Pairwise (· ≥ ·)

/-- R88, R89, R91, R93: over any ordered field with a floor (the reals among them), the beep's count of half-periods is
even and covers the duration by less than two of them, its expansion has `b_N` samples, and every run has `floor(H)` or
`floor(H) + 1` samples. -/
def Obligations.BeepDuration : Prop :=
  ∀ (α : Type) [Field α] [LinearOrder α] [IsStrictOrderedRing α] [FloorRing α]
    (rate freq len volume : α), 0 < rate → beepDomain freq len volume →
    let n := forcedEven (halfPeriodsNeeded freq len)
    let h := halfPeriod rate freq
    n % 2 = 0 ∧ len * rate ≤ n * h ∧ (n : α) * h < len * rate + 2 * h ∧
    (∀ xs, beepSamples rate (.number freq) (.number len) (.number volume) = .ok xs →
      xs.length = beepBoundary rate freq n) ∧
    ∀ k : Nat,
      beepBoundary rate freq (k + 1) - beepBoundary rate freq k = ⌊h⌋.toNat ∨
      beepBoundary rate freq (k + 1) - beepBoundary rate freq k = ⌊h⌋.toNat + 1

/-- R90: the high level is a legal sample, full scale at volume 1 and the rail at volume 0. -/
def Obligations.BeepHighLevel : Prop :=
  ∀ (α : Type) [Field α] [LinearOrder α] [IsStrictOrderedRing α] [FloorRing α],
    beepHigh (1 : α) = 32767 ∧ beepHigh (0 : α) = -32768 ∧
    ∀ volume : α, 0 ≤ volume → volume ≤ 1 →
      -32768 ≤ beepHigh volume ∧ beepHigh volume ≤ 32767 ∧
      ((beepHigh volume : α) ≤ -32768 + volume * 65535) ∧
      -32768 + volume * 65535 < (beepHigh volume : α) + 1

/-- R92, R94: for any non-decreasing boundaries from 0, sample number `j` of the expansion is high in an even half-period
and low in an odd one; with an even count and a non-empty last half-period the last sample is low. -/
def Obligations.BeepLevelsAlternate : Prop :=
  ∀ (b : Nat → Nat) (n : Nat) (high : Int), b 0 = 0 → (∀ k < n, b k ≤ b (k + 1)) →
    (beepExpansion b n high).length = b n ∧
    (∀ k < n, ∀ j, b k ≤ j → j < b (k + 1) →
      (beepExpansion b n high).getD j 0 = if k % 2 = 0 then high else -32768) ∧
    (n % 2 = 0 → 0 < n → b (n - 1) < b n → (beepExpansion b n high).getLast? = some (-32768))

/-- R94: the exact boundaries and count are one admissible choice, at any count and as the plan of the exact beep. -/
def Obligations.ExactBeepIsAdmissible : Prop :=
  ∀ (α : Type) [Field α] [LinearOrder α] [IsStrictOrderedRing α] [FloorRing α]
    (rate freq len volume : α) (n : Nat), 0 < rate → beepDomain freq len volume →
    admissibleBoundaries (halfPeriod rate freq) n (beepBoundary rate freq) ∧
      admissibleCount freq len 0 (halfPeriodsNeeded freq len) ∧
      admissiblePlan rate freq len 0 (exactPlan rate freq len)

/-- R93, R94, R96: in the domain, whatever boundaries and count the sequencer computes within R94's constraints, the beep is
an even number `N` of half-periods within `2 + e` of those asked for, its `b_N` samples miss the requested duration by less
than one sample and `2 + e` half-periods, and played from the host context under any handler it completes with the clock
advanced by `b_N`. -/
def Obligations.AdmissibleBeepPlays : Prop :=
  ∀ (α : Type) [Field α] [LinearOrder α] [IsStrictOrderedRing α] [FloorRing α]
    (plan : α → α → BeepPlan) (rate freq len volume e : α), 0 < rate → beepDomain freq len volume →
    admissiblePlan rate freq len e (plan freq len) →
    let n := plannedCount (plan freq len)
    let total := (plan freq len).boundary n
    n % 2 = 0 ∧ |(n : α) - 2 * freq * len| < 2 + e ∧
    |(total : α) - len * rate| < 1 + (2 + e) * halfPeriod rate freq ∧
    (∃ xs, beepSamplesBy plan (.number freq) (.number len) (.number volume) = .ok xs ∧
      xs.length = total ∧ ∀ x ∈ xs, x = beepHigh volume ∨ x = -32768) ∧
    ∀ (h : Handler) (s : State), blockInv s.block → s.block.phase = .idle →
      ∃ t, playBeepBy plan h (.number freq) (.number len) (.number volume) s = .next t ∧
        t.block.phase = .idle ∧ t.block.sclk = s.block.sclk + BitVec.ofNat 32 total

/-- R87, R100: a beep with an operand that is not-a-number or outside the domain is refused as `BEEP_DOMAIN`, however its
boundaries are computed; inside the domain the beep plays its expansion, and the exact one is R88's to R92's. That the answer
is `BEEP_DOMAIN` in `phase = FIRING` too, rather than `EMIT_IN_FIRE_WINDOW`, and that an empty expansion completes there, is
the model's choice (log entry 23, DESIGN CHOICE). -/
def Obligations.BeepDomainRefusal : Prop :=
  ∀ (α : Type) [Field α] [LinearOrder α] [FloorRing α] (plan : α → α → BeepPlan) (h : Handler)
    (rate freq len volume : α) (s : State),
    (∀ x y z : BeepOperand α, x = .nan ∨ y = .nan ∨ z = .nan →
      playBeepBy plan h x y z s = .refused .beepDomain ∧
      playBeep h rate x y z s = .refused .beepDomain) ∧
    (¬ beepDomain freq len volume →
      playBeepBy plan h (.number freq) (.number len) (.number volume) s = .refused .beepDomain ∧
      playBeep h rate (.number freq) (.number len) (.number volume) s = .refused .beepDomain) ∧
    (beepDomain freq len volume →
      playBeepBy plan h (.number freq) (.number len) (.number volume) s =
        playExpansion h (beepExpansion (plan freq len).boundary (plannedCount (plan freq len))
          (beepHigh volume)) s ∧
      playBeep h rate (.number freq) (.number len) (.number volume) s =
        playExpansion h (beepExpansion (beepBoundary rate freq)
          (forcedEven (halfPeriodsNeeded freq len)) (beepHigh volume)) s)
end

