-- ==== Sys2Proof/Laws/Queue.lean ====
section
/-! SUPPORT. The arithmetic of the cursors and what the queue operations do to the pending count. -/

namespace Sys2Proof.Laws

open Sys2Proof.Machine

variable {accW clkW curW cbW : Nat}

/-- Moving the in cursor adds one to the wrapped difference, moving the out cursor takes one from it. -/
theorem increment_sub {n : Nat} (p q : BitVec n) : increment p - q = (p - q) + BitVec.ofNat n 1 := by
  simp only [increment, BitVec.sub_eq_add_neg]
  ac_rfl

theorem sub_increment {n : Nat} (p q : BitVec n) : p - increment q = (p - q) - BitVec.ofNat n 1 := by
  simp only [increment, BitVec.sub_eq_add_neg, BitVec.neg_add]
  ac_rfl

/-- An accepted request is one more pending action. -/
theorem pendingCount_enqueued {b : Block accW clkW 32 cbW} (h : ¬ qFull b)
    (m : Memory clkW cbW) :
    pendingCount { b with slots := m, qin := increment b.qin } = pendingCount b + 1 := by
  simp only [qFull, pendingCount, Config.qcap] at h ⊢
  rw [increment_sub]
  bv_omega

/-- A `RET` is one pending action less. -/
theorem pendingCount_closeWindow {b : Block accW clkW 32 cbW} (h : 1 ≤ pendingCount b) :
    pendingCount (closeWindow b) + 1 = pendingCount b := by
  simp only [pendingCount, closeWindow_qin, closeWindow_qout] at h ⊢
  rw [sub_increment]
  bv_omega

/-- The `j`-th oldest pending action stands `j` slots after the out cursor, modulo 16 (R17). -/
theorem pendingIndex_toNat (b : Block accW clkW 32 cbW) (j : Nat) :
    (pendingIndex b j).toNat = (b.qout.toNat + j) % 16 := by
  simp only [pendingIndex, slotIndex_toNat, BitVec.toNat_add, BitVec.toNat_ofNat]
  omega

/-- The next free slot stands `pendingCount` slots after the out cursor. -/
theorem slotIndex_qin_toNat (b : Block accW clkW 32 cbW) :
    (slotIndex b.qin).toNat = (b.qout.toNat + pendingCount b) % 16 := by
  simp only [slotIndex_toNat, pendingCount]
  bv_omega

/-- While the queue is not full, an enqueue writes no slot that is pending (R30, R69). -/
theorem slotIndex_qin_ne {b : Block accW clkW 32 cbW} (h : ¬ qFull b) {j : Nat}
    (hj : j < pendingCount b) : pendingIndex b j ≠ slotIndex b.qin := by
  intro e
  have e' := congrArg BitVec.toNat e
  rw [pendingIndex_toNat, slotIndex_qin_toNat] at e'
  simp only [qFull, Config.qcap] at h
  omega

/-- The oldest pending action stands at the out cursor. -/
@[simp] theorem pendingIndex_zero (b : Block accW clkW curW cbW) :
    pendingIndex b 0 = slotIndex b.qout := by
  simp [pendingIndex]

/-- The queue is empty exactly when nothing is pending. -/
theorem qEmpty_iff (b : Block accW clkW curW cbW) : qEmpty b ↔ pendingCount b = 0 := by
  unfold qEmpty pendingCount
  constructor
  · intro h; simp [h]
  · intro h
    have h0 : b.qin - b.qout = 0#curW := BitVec.eq_of_toNat_eq (by simpa using h)
    calc b.qin = b.qin - b.qout + b.qout := (BitVec.sub_add_cancel _ _).symm
      _ = b.qout := by rw [h0, BitVec.zero_add]

/-- Where every pending slot is written, the pending actions are as many as are counted (R17). -/
theorem pendingActions_length {b : Block accW clkW curW cbW} (h : pendingWritten b) :
    (pendingActions b).length = pendingCount b := by
  have e : (List.range (pendingCount b)).countP (fun j => (memRead b.slots (pendingIndex b j)).isSome) =
      (List.range (pendingCount b)).length :=
    List.countP_eq_length.2 fun j hj => h j (List.mem_range.1 hj)
  rw [pendingActions, List.length_filterMap_eq_countP, e, List.length_range]

/-- `head_due` is true exactly of a pending head whose target is due (R19). -/
theorem headDue_iff {b : Block accW clkW curW cbW} :
    headDue b = true ↔ ∃ a, headView b = .pending a ∧ due a.target b.sclk := by
  unfold headDue
  cases headView b <;> simp

/-- Where every pending slot is written, the head peek never meets an unwritten one (R30). -/
theorem headView_ne_unwritten {b : Block accW clkW curW cbW} (h : pendingWritten b) :
    headView b ≠ .unwritten := by
  intro hu
  obtain ⟨hne, hr⟩ := headView_unwritten_iff.1 hu
  have := h 0 (Nat.pos_of_ne_zero fun h0 => hne ((qEmpty_iff b).2 h0))
  simp [hr] at this

end Sys2Proof.Laws
end

