-- ==== Sys2Proof/Tests/Slice0.lean ====
section
/-! SUPPORT. Small tests with expected results from the spec, and a witness for the hypotheses of each statement. -/

namespace Sys2Proof.Tests

open Sys2Proof Sys2Proof.Machine

/-! ### Well-formedness: each range check refuses a line outside it (R50) -/

theorem test_asm_sample_low : assemble (.emit (-32769)) = none := by decide
theorem test_asm_sample_high : assemble (.emit 32768) = none := by decide
theorem test_asm_target_negative : assemble (.schedAbs (-1) 0) = none := by decide
theorem test_asm_target_high : assemble (.schedAbs 4294967296 0) = none := by decide
theorem test_asm_tag_high : assemble (.schedAbs 0 65536) = none := by decide
theorem test_asm_delta_high : assemble (.schedRel 4294967296 0) = none := by decide
theorem test_asm_delta_tag : assemble (.schedRel 0 (-1)) = none := by decide
theorem test_asm_ends : assemble (.emit (-32768)) = some (.emit 0x8000) := by decide

/-! ### Decoding, words written out from R42 to R45 and vectors V38, V39 -/

theorem test_decode_emit : decode 0x100000000000CFC7#64 = .ok (.emit (wrap 16 (-12345))) := by decide
theorem test_decode_schedAbs : decode 0x2000FFFFFFFFFFFF#64 = .ok (.schedAbs 0xFFFFFFFF 0xFFFF) := by
  decide
theorem test_decode_schedRel : decode 0x30000007FFFFFFFF#64 = .ok (.schedRel 0xFFFFFFFF 7) := by decide
theorem test_decode_ret : decode 0x4000000000000000#64 = .ok .ret := by decide
theorem test_decode_op15 : decode 0xFFFFFFFFFFFFFFFF#64 = .error .opcodeReserved := by decide
theorem test_decode_emit_z : decode 0x1001000000000000#64 = .error .zNonzero := by decide
theorem test_decode_rel_z : decode 0x3800000000000000#64 = .error .zNonzero := by decide
theorem test_decode_ret_cb : decode 0x4000000100000000#64 = .error .retOperand := by decide
theorem test_encode_schedAbs : encode (.schedAbs 2 0xB1) = 0x200000B100000002#64 := by decide
theorem test_table_word : decodeTableWord 64 0x300000A100000003 = some (.schedRel 3 0xA1) := by decide

/-! ### The encoder, vectors of 95_test_vectors.md section 2.1 -/

theorem test_V14 : encodeSample (0#32) 12345 = (0xB76DB76D#32, wrap 32 (-1846)) := by decide
theorem test_V19 : encodeSample (32767#32) (wrap 16 (-1)) = (0x2AAAAAAA#32, wrap 32 (-32752)) := by decide
theorem test_V23 : encodeSample (wrap 32 (-1)) (wrap 16 (-1)) = (0x95555555#32, 15#32) := by decide
theorem test_V30 : encodeSample (100000#32) 32767 = (0x3FFFFFFF#32, wrap 32 (-31070)) := by decide
theorem test_V29_width16 : encodeSample (wrap 16 (-32768)) (wrap 16 (-32768)) = (0x80000000#32, 32767#16) := by
  decide
theorem test_V35_persistence :
    encodeSample (wrap 32 (-1862)) (wrap 16 (-12345)) = (0x49124912#32, wrap 32 (-48)) := by decide

/-! ### Small states -/

/-- A block with the accumulator at 0. -/
def blockOf (sclk qin qout : BitVec 32) (slots : Memory 32 16) (phase : Phase) : Block 32 32 32 16 :=
  ⟨0, sclk, qin, qout, slots, phase⟩

/-- A state with nothing presented and nothing output. -/
def stateOf (b : Block 32 32 32 16) : State := ⟨b, [], []⟩

/-- The state of V57 to V58e: the action `(3, 0xA1)` in slot 0. -/
def pendingAt (sclk : BitVec 32) (phase : Phase) : State :=
  stateOf (blockOf sclk 1 0 [(0, ⟨3, 0xA1⟩)] phase)

/-- Sixteen pending actions with target 0. -/
def fullBlock (phase : Phase) : Block 32 32 32 16 :=
  blockOf 0 16 0 ((List.range 16).map fun k => (k, ⟨0, BitVec.ofNat 16 (k + 1)⟩)) phase

/-- The next state of an outcome. -/
def nextOf (o : Host.Outcome State Fault Refusal) : Option State :=
  match o with
  | .next s => some s
  | .fault _ => none
  | .refused _ => none

/-- One word presented to a block after reset. -/
def presented (w : CmdWord) : State := { State.reset with port := [w] }

/-! ### One step of each command, vectors V49 to V58g -/

theorem test_V56_emit_empty : nextOf (step (State.reset.withFetchWord 64 0x1000000000000000)) =
    some ⟨⟨wrap 32 (-16), 1, 0, 0, [], .idle⟩, [], [.word 0xAAAAAAAA]⟩ := by decide +kernel
theorem test_V58a_emit_fires : nextOf (exec (.emit (wrap 16 (-32768))) (pendingAt 2 .idle)) =
    some { pendingAt 3 .firing with trace := [.word 0, .fire 0xA1] } := by decide +kernel
theorem test_V58f_clock_wraps :
    nextOf (exec (.emit (wrap 16 (-32768))) (stateOf (blockOf 0xFFFFFFFF 0 0 [] .idle))) =
      some ⟨blockOf 0 0 0 [] .idle, [], [.word 0]⟩ := by decide +kernel
theorem test_V54_cursor_wraps :
    exec (.schedAbs 7 0x55) (stateOf (blockOf 0 0xFFFFFFFF 0xFFFFFFF8 [] .idle)) =
      .next (stateOf (blockOf 0 0 0xFFFFFFF8 [(15, ⟨7, 0x55⟩)] .idle)) := rfl
theorem test_V51_dropped : exec (.schedAbs 7 0x55) (stateOf (fullBlock .idle)) =
    .next (stateOf (fullBlock .idle)) := rfl
theorem test_V48_rel_wraps : exec (.schedRel 3 0xD1) (stateOf (blockOf 0xFFFFFFFE 0 0 [] .idle)) =
    .next (stateOf (blockOf 0xFFFFFFFE 1 0 [(0, ⟨1, 0xD1⟩)] .idle)) := rfl
theorem test_V58e_rel_nested : exec (.schedRel 5 0xA2) (pendingAt 3 .firing) =
    .next (stateOf (blockOf 3 2 0 [(0, ⟨3, 0xA1⟩), (1, ⟨8, 0xA2⟩)] .firing)) := rfl
theorem test_V58b_ret : exec .ret (pendingAt 3 .firing) =
    .next (stateOf (blockOf 3 1 1 [(0, ⟨3, 0xA1⟩)] .idle)) := rfl
theorem test_V58g_ret_wraps : exec .ret (stateOf (blockOf 9 2 0xFFFFFFFF [] .firing)) =
    .next (stateOf (blockOf 9 2 0 [] .idle)) := rfl
theorem test_P8_reserved : step (presented 0) = .refused .reservedEncoding := rfl

/-! ### The generators, vectors V61 to V66 -/

theorem test_V61_boundary : beepBoundary (44100 : ℚ) 440 9 = 451 := by
  norm_num [beepBoundary, halfPeriod]
  rfl
theorem test_V62_count : forcedEven (halfPeriodsNeeded (1000 : ℚ) (25 / 10000)) = 6 := by
  norm_num [forcedEven, halfPeriodsNeeded]
  rfl
theorem test_V63_high : beepHigh (1 / 4 : ℚ) = -16385 := by norm_num [beepHigh]
theorem test_V65_silent (f v : ℚ) (hf : 0 < f) (hv : 0 ≤ v ∧ v ≤ 1) :
    beepSamples 44100 (.number f) (.number 0) (.number v) = .ok [] := by
  simp [beepSamples, beepSamplesBy, exactPlan, plannedCount, beepDomain, hf, hv, halfPeriodsNeeded, forcedEven,
    beepExpansion]
theorem test_R87_nan : beepSamples (44100 : ℚ) (.number 440) (.number 0) .nan = .error .beepDomain := rfl
theorem test_V59_first : rampIn.take 3 = [-32768, -32752, -32736] := by
  rw [rampIn, rampInWith, ← List.map_take, List.take_range]; decide
theorem test_V60_first : rampOut.take 3 = [-16, -32, -48] := by
  rw [rampOut, rampOutWith, ← List.map_take, List.take_range]; decide

/-! ### Witnesses: the hypotheses of each statement hold together somewhere, clause by clause -/

theorem witness_ReservedWordsRefused_valid : decode 0x4000000000000000#64 = .ok .ret := by decide
theorem witness_ReservedWordsRefused_invalid :
    (presented 0x4000000000000001#64).port = [0x4000000000000001#64] ∧
      ∃ e, decode 0x4000000000000001#64 = .error e := ⟨rfl, .retOperand, by decide⟩
theorem witness_AssemblerRoundTrip_wellFormed : asmWellFormed (.schedAbs 4294967295 65535) = true := by decide
theorem witness_AssemblerRoundTrip_illFormed : asmWellFormed (.schedAbs 4294967295 65536) = false := by decide
theorem witness_StepRunsDecodedCommand :
    (presented 0x1000000000008000#64).port = 0x1000000000008000#64 :: [] ∧
      decode 0x1000000000008000#64 = .ok (.emit 0x8000) := by decide
theorem witness_StepRunsDecodedCommand_idle : State.reset.port = [] := rfl
theorem witness_StepOnlyExtendsTrace : ∃ t, step (presented 0x1000000000008000#64) = .next t := ⟨_, rfl⟩
theorem witness_BitStepRule_one : (5 : Sample).toInt ≥ (5#32).toInt := by decide
theorem witness_BitStepRule_zero : ¬ (5 : Sample).toInt ≥ (6#32).toInt := by decide
theorem witness_AccumulatorRange_low : 16 ≤ 16 ∧ accInRange (wrap 16 (-32767)) := by decide
theorem witness_AccumulatorRange_high : 16 ≤ 16 ∧ accInRange (wrap 16 32767) := by decide
theorem witness_AccumulatorRange_reachable : Reachable State.reset := Reachable.reset []
theorem witness_EncodeExtremes : accInRange (wrap 32 (-32767)) ∧ accInRange (wrap 32 32767) := by decide
theorem witness_OnesCountIdentity : accInRange (wrap 32 (-32767)) := by decide
theorem witness_DutyCycle : accInRange (0#32) ∧ 0 < 1 := by decide
theorem witness_OutOfRangeRecovery_above :
    32767 < (32768#32).toInt ∧ (wrap 16 (-32768) : Sample).toInt = -32768 ∧
      -32768 < (wrap 16 (-32767) : Sample).toInt := by decide
theorem witness_OutOfRangeRecovery_below :
    (wrap 32 (-32768)).toInt < -32767 ∧ (32767 : Sample).toInt = 32767 ∧
      (32766 : Sample).toInt < 32767 := by decide
theorem witness_WidthIndependence : 16 ≤ 16 ∧ 5 ≤ 5 ∧ accResetLegal (-32767) ∧ accResetLegal 32767 := by decide
theorem witness_CommandKeepsInvariant : 16 ≤ 16 ∧ 2 ≤ 2 ∧ 5 ≤ 5 ∧ 1 ≤ 1 ∧ accResetLegal (-32767) ∧
    blockInv (Block.resetWith 16 2 5 1 (-32767)) ∧
    ∃ r, runCommand (.schedRel 3 1) (Block.resetWith 16 2 5 1 (-32767)) = .ok r :=
  ⟨by decide, by decide, by decide, by decide, by decide, by decide, _, rfl⟩
theorem witness_EncoderAndSchedulerIndependent_word :
    (pendingAt 2 .idle).block.acc = State.reset.block.acc ∧
      (∃ r, emitBlock 0 (pendingAt 2 .idle).block = .ok r) ∧
      ∃ r, emitBlock 0 State.reset.block = .ok r := ⟨rfl, ⟨_, rfl⟩, _, rfl⟩
theorem witness_EncoderAndSchedulerIndependent_fires :
    sameScheduler (pendingAt 2 .idle).block { (pendingAt 2 .idle).block with acc := 7 } ∧
      ∃ r, emitBlock 0 (pendingAt 2 .idle).block = .ok r := ⟨by decide, _, rfl⟩
theorem witness_EncoderAndSchedulerIndependent_others :
    (∀ x, (.ret : Command 32 16) ≠ .emit x) ∧
      sameScheduler (pendingAt 3 .firing).block { (pendingAt 3 .firing).block with acc := 7 } ∧
      ∃ r, runCommand .ret (pendingAt 3 .firing).block = .ok r :=
  ⟨by simp, by decide, _, rfl⟩
theorem witness_EmitResult_empty :
    State.reset.block.phase = .idle ∧ State.reset.block.qin = State.reset.block.qout := ⟨rfl, rfl⟩
theorem witness_EmitResult_notDue :
    (pendingAt 1 .idle).block.phase = .idle ∧
      (pendingAt 1 .idle).block.qin ≠ (pendingAt 1 .idle).block.qout ∧
      memRead (pendingAt 1 .idle).block.slots (slotIndex (pendingAt 1 .idle).block.qout) = some ⟨3, 0xA1⟩ ∧
      ¬ ((3#32) - ((pendingAt 1 .idle).block.sclk + 1)).toInt ≤ 0 := by decide
theorem witness_EmitResult_due :
    (pendingAt 2 .idle).block.phase = .idle ∧
      (pendingAt 2 .idle).block.qin ≠ (pendingAt 2 .idle).block.qout ∧
      memRead (pendingAt 2 .idle).block.slots (slotIndex (pendingAt 2 .idle).block.qout) = some ⟨3, 0xA1⟩ ∧
      ((3#32) - ((pendingAt 2 .idle).block.sclk + 1)).toInt ≤ 0 := by decide
theorem witness_EmitResult_window : (pendingAt 3 .firing).block.phase = .firing := rfl
theorem witness_EnqueueStep_full : 16 ≤ ((fullBlock .idle).qin - (fullBlock .idle).qout).toNat := by decide
theorem witness_EnqueueStep_room : ¬ 16 ≤ ((15#32) - (0#32)).toNat := by decide
theorem witness_SchedResults_full :
    16 ≤ ((stateOf (fullBlock .firing)).block.qin - (stateOf (fullBlock .firing)).block.qout).toNat := by decide
theorem witness_SchedResults_room :
    ¬ 16 ≤ ((stateOf (blockOf 0 15 0 [] .idle)).block.qin -
      (stateOf (blockOf 0 15 0 [] .idle)).block.qout).toNat := by decide
theorem witness_RetResult_window : (pendingAt 3 .firing).block.phase = .firing ∧
    blockInv (pendingAt 3 .firing).block ∧ ∃ t, exec .ret (pendingAt 3 .firing) = .next t :=
  ⟨rfl, by decide, _, rfl⟩
theorem witness_RetResult_outside : (pendingAt 3 .idle).block.phase = .idle := rfl
theorem witness_ContextTable_legal :
    legalIn (pendingAt 3 .firing).block.phase .ret = true ∧ blockInv (pendingAt 3 .firing).block := by decide
theorem witness_ContextTable_refused :
    legalIn State.reset.block.phase .ret = false ∧
      legalIn (pendingAt 3 .firing).block.phase (.emit 0) = false := by decide
theorem witness_EmitFrame : ∃ t, exec (.emit 0) (pendingAt 2 .idle) = .next t := ⟨_, rfl⟩
theorem witness_SchedFrame_stored : ∃ t, exec (.schedRel 5 0xA2) (pendingAt 3 .firing) = .next t := ⟨_, rfl⟩
theorem witness_SchedFrame_dropped : (∃ t, exec (.schedAbs 5 0xA2) (stateOf (fullBlock .idle)) = .next t) ∧
    16 ≤ pendingCount (stateOf (fullBlock .idle)).block := ⟨⟨_, rfl⟩, by decide⟩
theorem witness_RetFrame : ∃ t, exec .ret (pendingAt 3 .firing) = .next t := ⟨_, rfl⟩
theorem witness_StepKeepsInvariant :
    blockInv (presented 0x2000000100000000#64).block ∧
      ∃ t, step (presented 0x2000000100000000#64) = .next t := ⟨by decide, _, rfl⟩
theorem witness_StepKeepsMemoryForm : Memory.wf (presented 0x2000000100000000#64).block.slots ∧
    ∃ t, step (presented 0x2000000100000000#64) = .next t := ⟨by decide, _, rfl⟩
theorem witness_ClockCountsEmits : clockCountsWords (presented 0x1000000000000000#64) ∧
    ∃ t, step (presented 0x1000000000000000#64) = .next t := ⟨by decide, _, rfl⟩
theorem witness_CursorCountsFirings :
    cursorCountsFires { presented 0x4000000000000000#64 with
      block := (pendingAt 3 .firing).block, trace := [.word 0, .fire 0xA1] } ∧
    ∃ t, step { presented 0x4000000000000000#64 with
      block := (pendingAt 3 .firing).block, trace := [.word 0, .fire 0xA1] } = .next t :=
  ⟨by decide, _, rfl⟩
theorem witness_NoUnwrittenSlotRead : ∃ s, Reachable s ∧ s.block.qin ≠ s.block.qout :=
  ⟨_, .step (.reset [0x2000000100000000#64]) rfl, by decide⟩
theorem witness_NoUnwrittenSlotRead_refused :
    (stateOf (blockOf 0 1 0 [] .idle)).block.phase = .idle ∧
      (stateOf (blockOf 0 1 0 [] .idle)).block.qin ≠ (stateOf (blockOf 0 1 0 [] .idle)).block.qout ∧
      memRead (stateOf (blockOf 0 1 0 [] .idle)).block.slots
        (slotIndex (stateOf (blockOf 0 1 0 [] .idle)).block.qout) = none := by decide
theorem witness_RefusalsAreClosed_reserved : blockInv (presented 0).block ∧
    step (presented 0) = .refused .reservedEncoding := ⟨by decide, rfl⟩
theorem witness_RefusalsAreClosed_ret : blockInv (presented 0x4000000000000000#64).block ∧
    step (presented 0x4000000000000000#64) = .refused .retOutsideFireWindow := ⟨by decide, rfl⟩
theorem witness_RefusalsAreClosed_emit : blockInv (pendingAt 3 .firing).block ∧
    step (present 0x1000000000000000#64 (pendingAt 3 .firing)) = .refused .emitInFireWindow :=
  ⟨by decide, rfl⟩
theorem witness_DueWindow : 2 ≤ 2 := le_rfl
theorem witness_TargetDistance_future : 1 ≤ ((0x80000000#32) - 0#32).toNat ∧
    ((0x80000000#32) - 0#32).toNat ≤ 2147483648 ∧ 1 ≤ 1 ∧ 1 ≤ ((0x80000000#32) - 0#32).toNat := by decide
theorem witness_TargetDistance_now : ((7#32) - 7#32).toNat = 0 := by decide
theorem witness_TargetDistance_misread : 2147483649 ≤ ((0x80000001#32) - 0#32).toNat := by decide
theorem witness_RefinesQueueView : blockInv (fullBlock .firing) := by decide
theorem witness_PendingLeavesOnlyByRet :
    blockInv (present 0x4000000000000000#64 (pendingAt 3 .firing)).block ∧
      ∃ t, step (present 0x4000000000000000#64 (pendingAt 3 .firing)) = .next t := ⟨by decide, _, rfl⟩
theorem witness_AtMostOneFiringPerEmit_emit : ∃ t, exec (.emit 0) (pendingAt 2 .idle) = .next t := ⟨_, rfl⟩
theorem witness_AtMostOneFiringPerEmit_other :
    (∃ t, exec .ret (pendingAt 3 .firing) = .next t) ∧ ∀ x, Instr.ret ≠ .emit x :=
  ⟨⟨_, rfl⟩, fun _ h => Instr.noConfusion h⟩
theorem witness_OnlyHeadInspected :
    memRead [(0, ⟨3, 0xA1⟩), (1, (⟨0, 9⟩ : Action 32 16))] (slotIndex (pendingAt 2 .idle).block.qout) =
      memRead (pendingAt 2 .idle).block.slots (slotIndex (pendingAt 2 .idle).block.qout) := by decide
theorem witness_RelativeActionFiresOnTime_zero : State.reset.block.phase = .idle ∧
    State.reset.block.qin = State.reset.block.qout ∧ (0#32).toNat ≤ 2147483648 ∧
    [(0 : Sample)].length = max (0#32).toNat 1 := by decide
theorem witness_RelativeActionFiresOnTime_horizon : State.reset.block.phase = .idle ∧
    State.reset.block.qin = State.reset.block.qout ∧ (0x80000000#32).toNat ≤ 2147483648 ∧
    (List.replicate 2147483648 (0 : Sample)).length = max (0x80000000#32).toNat 1 :=
  ⟨rfl, rfl, by decide, by rw [List.length_replicate]; decide⟩
theorem witness_BacklogFiresOnePerSample : blockInv (fullBlock .idle) ∧
    (stateOf (fullBlock .idle)).block.phase = .idle ∧
    (List.replicate 16 (0 : Sample)).length ≤ (pendingActions (stateOf (fullBlock .idle)).block).length ∧
    ∀ a ∈ (pendingActions (stateOf (fullBlock .idle)).block).take (List.replicate 16 (0 : Sample)).length,
      ((stateOf (fullBlock .idle)).block.sclk + 1 - a.target).toNat +
        (List.replicate 16 (0 : Sample)).length ≤ 2147483649 := by decide
theorem witness_NestedScheduling_full : blockInv (stateOf (fullBlock .firing)).block ∧
    (stateOf (fullBlock .firing)).block.phase = .firing ∧
    pendingCount (stateOf (fullBlock .firing)).block = 16 := by decide
theorem witness_NestedScheduling_room : blockInv (pendingAt 3 .firing).block ∧
    (pendingAt 3 .firing).block.phase = .firing ∧ pendingCount (pendingAt 3 .firing).block < 16 := by decide
theorem witness_FullQueueDropsNewest : blockInv (stateOf (fullBlock .idle)).block ∧ blockInv State.reset.block := by
  decide
theorem witness_FireWindowProtocol_opens : (pendingAt 2 .idle).block.phase = .idle ∧
    ∃ t, exec (.emit 0) (pendingAt 2 .idle) = .next t ∧ t.block.phase = .firing := ⟨rfl, _, rfl, rfl⟩
theorem witness_FireWindowProtocol_closes : (pendingAt 3 .firing).block.phase = .firing ∧
    ∃ t, exec .ret (pendingAt 3 .firing) = .next t := ⟨rfl, _, rfl⟩
theorem witness_CallbackAlwaysReturns : blockInv (pendingAt 3 .firing).block ∧
    (pendingAt 3 .firing).block.phase = .firing := by decide
theorem witness_PlayingCompletes : blockInv (pendingAt 2 .idle).block ∧
    (pendingAt 2 .idle).block.phase = .idle := by decide
theorem witness_RampsConform : 32 * 2048 ≤ 65536 ∧ 16 ≤ 16 := by decide
theorem witness_BeepDuration : (0 : ℚ) < 44100 ∧ beepDomain (440 : ℚ) (1 / 10) 1 := by
  norm_num [beepDomain]
theorem witness_BeepDuration_samples :
    ∃ xs, beepSamples (44100 : ℚ) (.number 440) (.number (1 / 10)) (.number 1) = .ok xs := ⟨_, if_pos (by norm_num [beepDomain])⟩
theorem witness_BeepHighLevel : (0 : ℚ) ≤ 1 ∧ (1 : ℚ) ≤ 1 := by norm_num
theorem witness_BeepLevelsAlternate : (fun k => 4 * k) 0 = 0 ∧
    (∀ k < 6, (fun k => 4 * k) k ≤ (fun k => 4 * k) (k + 1)) ∧ 6 % 2 = 0 ∧ 0 < 6 ∧
    (fun k => 4 * k) (6 - 1) < (fun k => 4 * k) 6 := by decide
theorem witness_AdmissibleBeepPlays : (0 : ℚ) < 8 ∧ beepDomain (1 : ℚ) (1 / 2) 1 ∧
    admissiblePlan (8 : ℚ) 1 (1 / 2) (1 / 4) ⟨2, fun k => 4 * k⟩ ∧
    blockInv (pendingAt 2 .idle).block ∧ (pendingAt 2 .idle).block.phase = .idle := by
  refine ⟨by norm_num, by norm_num [beepDomain], ⟨⟨rfl, fun k _ => by simp, fun k _ => ?_⟩, ?_⟩, by decide, rfl⟩
  · norm_num [halfPeriod, mul_comm]
  · norm_num [abs_lt]
theorem witness_BeepDomainRefusal_nan (x : BeepOperand ℚ) :
    (.nan : BeepOperand ℚ) = .nan ∨ x = .nan ∨ x = .nan := .inl rfl
theorem witness_BeepDomainRefusal : ¬ beepDomain (0 : ℚ) 0 0 ∧ beepDomain (1 : ℚ) 0 1 := by
  norm_num [beepDomain]

end Sys2Proof.Tests
end

section
/-! PROOFS of the statements of 00_scope.md. The rules they need, each said once: the queue at every cursor width of R5,
the accumulator's range, the invariant under each part of a command, and what a refused command says of its state. -/

namespace Sys2Proof.Proofs

open Sys2Proof.Machine Sys2Proof.Laws

/-! ### The queue, at every cursor width of R5 -/

section Queue

variable {accW clkW curW cbW : Nat}

/-- A cursor has room to count one more than `QCAP` actions (R5: `CUR_W` is at least 5). -/
theorem qcap_add_one_lt_two_pow (hw : 5 ≤ curW) : Config.qcap + 1 < 2 ^ curW :=
  calc Config.qcap + 1 < 2 ^ 5 := by decide
    _ ≤ 2 ^ curW := Nat.pow_le_pow_right (by decide) hw

theorem toNat_ofNat_one (hw : 5 ≤ curW) : (BitVec.ofNat curW 1).toNat = 1 :=
  (BitVec.toNat_ofNat 1 curW).trans (Nat.mod_eq_of_lt (Nat.one_lt_two_pow (by omega)))

/-- An accepted request is one more pending action, at every cursor width of R5. -/
theorem pendingCount_enqueue (hw : 5 ≤ curW) {b : Block accW clkW curW cbW} (h : ¬ qFull b)
    (m : Memory clkW cbW) :
    pendingCount { b with slots := m, qin := increment b.qin } = pendingCount b + 1 := by
  have hroom := qcap_add_one_lt_two_pow hw
  have hone := toNat_ofNat_one hw
  simp only [qFull, pendingCount] at h ⊢
  rw [increment_sub, BitVec.toNat_add_of_lt (by omega), hone]

/-- A `RET` is one pending action less, at every cursor width of R5. -/
theorem pendingCount_ret (hw : 5 ≤ curW) {b : Block accW clkW curW cbW} (h : 1 ≤ pendingCount b) :
    pendingCount (closeWindow b) = pendingCount b - 1 := by
  have hone := toNat_ofNat_one hw
  simp only [pendingCount, closeWindow_qin, closeWindow_qout] at h ⊢
  rw [sub_increment, BitVec.toNat_sub_of_le (by rw [BitVec.le_def]; omega), hone]

/-- After a `RET` the `j`-th oldest action is the one that was next after it. -/
theorem pendingIndex_closeWindow (b : Block accW clkW curW cbW) (j : Nat) :
    pendingIndex (closeWindow b) j = pendingIndex b (j + 1) := by
  simp only [pendingIndex, closeWindow_qout, increment, BitVec.ofNat_add]
  ac_rfl

/-- The slot at the in cursor is the one behind the youngest pending action. -/
theorem slotIndex_qin_eq_pendingIndex (b : Block accW clkW curW cbW) :
    slotIndex b.qin = pendingIndex b (pendingCount b) := by
  rw [pendingIndex, pendingCount, BitVec.ofNat_toNat, BitVec.setWidth_eq, BitVec.add_comm,
    BitVec.sub_add_cancel]

/-- The `j`-th oldest pending action stands `j` slots after the out cursor, since 16 divides `2^CUR_W` (R5, R17). -/
theorem pendingIndex_toNat_of_width (hw : 4 ≤ curW) (b : Block accW clkW curW cbW) (j : Nat) :
    (pendingIndex b j).toNat = (b.qout.toNat + j) % 16 := by
  have hdvd : 16 ∣ 2 ^ curW := pow_dvd_pow 2 hw
  rw [pendingIndex, slotIndex_toNat, BitVec.toNat_add, BitVec.toNat_ofNat, Nat.add_mod_mod,
    Nat.mod_mod_of_dvd _ hdvd]

/-- While the queue is not full, an enqueue writes no slot that is pending (R30, R69). -/
theorem pendingIndex_ne_slotIndex_qin (hw : 5 ≤ curW) {b : Block accW clkW curW cbW} (h : ¬ qFull b)
    {j : Nat} (hj : j < pendingCount b) : pendingIndex b j ≠ slotIndex b.qin := by
  intro e
  have e' := congrArg BitVec.toNat e
  rw [slotIndex_qin_eq_pendingIndex, pendingIndex_toNat_of_width (by omega),
    pendingIndex_toNat_of_width (by omega)] at e'
  simp only [qFull, Config.qcap] at h
  omega

/-- An accepted request leaves every pending slot written, its own included (R30, R64). -/
theorem pendingWritten_enqueue (hw : 5 ≤ curW) {b : Block accW clkW curW cbW} (h : ¬ qFull b)
    (hwritten : pendingWritten b) (a : Action clkW cbW) :
    pendingWritten { b with
      slots := memWrite b.slots (slotIndex b.qin) a
      qin := increment b.qin } := by
  intro j hj
  rw [pendingCount_enqueue hw h] at hj
  change (memRead (memWrite b.slots (slotIndex b.qin) a) (pendingIndex b j)).isSome
  rcases Nat.lt_succ_iff_lt_or_eq.1 hj with hold | rfl
  · rw [memRead_memWrite_other _ _ (pendingIndex_ne_slotIndex_qin hw h hold)]
    exact hwritten j hold
  · rw [← slotIndex_qin_eq_pendingIndex, memRead_memWrite_same]
    rfl

/-- Reclaiming the head leaves every pending slot written (R30, R77). -/
theorem pendingWritten_closeWindow (hw : 5 ≤ curW) {b : Block accW clkW curW cbW}
    (h : 1 ≤ pendingCount b) (hwritten : pendingWritten b) : pendingWritten (closeWindow b) := by
  intro j hj
  rw [pendingCount_ret hw h] at hj
  rw [pendingIndex_closeWindow]
  exact hwritten (j + 1) (by omega)

end Queue

/-! ### The accumulator's range (R13) -/

section Accumulator

variable {accW : Nat}

/-- A value of the reachable range is stored exactly at every accumulator width of R5. -/
theorem toInt_ofInt_of_accResetLegal (hw : 16 ≤ accW) {x : Int} (h : accResetLegal x) :
    (BitVec.ofInt accW x).toInt = x := by
  have hpow : (2 : Int) ^ 15 ≤ 2 ^ (accW - 1) := pow_le_pow_right₀ (by decide) (by omega)
  obtain ⟨hlow, hhigh⟩ := h
  exact BitVec.toInt_ofInt_eq_self (by omega) (by omega) (by omega)

theorem accInRange_ofInt (hw : 16 ≤ accW) {x : Int} (h : accResetLegal x) :
    accInRange (BitVec.ofInt accW x) := by
  rwa [accInRange, toInt_ofInt_of_accResetLegal hw h]

/-- A bit-step with any sample stays in the range: the feedback term brings the accumulator back towards the sample's
side of it (R13). -/
theorem accInRange_bitStep (hw : 16 ≤ accW) {acc : BitVec accW} (h : accInRange acc) (s : Sample) :
    accInRange (bitStep acc s).2 := by
  obtain ⟨hlow, hhigh⟩ := h
  have hmin : -32768 ≤ s.toInt := s.le_toInt
  have hmax : s.toInt < 32768 := s.toInt_lt
  rcases le_or_gt acc.toInt s.toInt with hle | hgt
  · rw [bitStep_one hle]
    exact accInRange_ofInt hw ⟨by omega, by omega⟩
  · rw [bitStep_zero hgt]
    exact accInRange_ofInt hw ⟨by omega, by omega⟩

theorem accInRange_encodeSteps (hw : 16 ≤ accW) (s : Sample) (n : Nat) (w : BitWord)
    {acc : BitVec accW} (h : accInRange acc) : accInRange (encodeSteps s n w acc).2 := by
  induction n generalizing w acc with
  | zero => exact h
  | succ n ih => exact ih _ (accInRange_bitStep hw h s)

end Accumulator

/-! ### The invariant under each part of a command -/

section Invariant

variable {accW clkW curW cbW : Nat}

/-- The reset block: an accumulator in range, nothing pending, nothing running (R25). -/
theorem blockInv_resetWith (hw : 16 ≤ accW) {accReset : Int} (h : accResetLegal accReset) :
    blockInv (Block.resetWith accW clkW curW cbW accReset) := by
  have hcount : pendingCount (Block.resetWith accW clkW curW cbW accReset) = 0 :=
    (qEmpty_iff _).1 rfl
  refine ⟨accInRange_ofInt hw h, ?_, ?_, ?_, resetWith_memory_wf accReset⟩
  · rw [hcount]; exact Nat.zero_le _
  · intro hp; cases hp
  · intro j hj
    rw [hcount] at hj
    exact absurd hj (Nat.not_lt_zero j)

/-- Encoding a sample and advancing the clock touch only the accumulator's part of the invariant (R72). -/
theorem blockInv_emitWord (hw : 16 ≤ accW) {b : Block accW clkW curW cbW} (h : blockInv b)
    (x : Sample) : blockInv (emitWord x b).1 := by
  obtain ⟨hacc, hqueue⟩ := h
  exact ⟨accInRange_encodeSteps hw x 32 0#32 hacc, hqueue⟩

/-- A fired action stays counted as pending while its callback runs (R18, R76). -/
theorem blockInv_fire {b : Block accW clkW curW cbW} (h : blockInv b) {a : Action clkW cbW}
    (hhead : headView b = .pending a) : blockInv (fire a.cb b).1 := by
  obtain ⟨hacc, hcap, -, hwritten, hmem⟩ := h
  have hne : pendingCount b ≠ 0 := mt (qEmpty_iff b).2 (headView_pending_iff.1 hhead).1
  exact ⟨hacc, hcap, fun _ => Nat.one_le_iff_ne_zero.2 hne, hwritten, hmem⟩

/-- The return of a callback keeps the invariant: its action was counted as pending (R18, R77). -/
theorem blockInv_closeWindow (hw : 5 ≤ curW) {b : Block accW clkW curW cbW} (h : blockInv b)
    (hp : b.phase = .firing) : blockInv (closeWindow b) := by
  obtain ⟨hacc, hcap, hrunning, hwritten, hmem⟩ := h
  have hcount := hrunning hp
  refine ⟨hacc, ?_, ?_, pendingWritten_closeWindow hw hcount hwritten, hmem⟩
  · rw [pendingCount_ret hw hcount]; omega
  · intro hf; cases hf

/-- `Enqueue` keeps the invariant, in both phases (R64, R69). -/
theorem blockInv_enqueue (hw : 5 ≤ curW) {t : BitVec clkW} {cb : BitVec cbW}
    {b b' : Block accW clkW curW cbW} {events : List (Event cbW)} (h : blockInv b)
    (he : enqueue t cb b = .ok (b', events)) : blockInv b' := by
  rcases enqueue_cases t cb b with ⟨-, hdrop⟩ | ⟨hroom, hstore⟩
  · rw [hdrop] at he
    cases he
    exact h
  · rw [hstore] at he
    cases he
    obtain ⟨hacc, -, -, hwritten, hmem⟩ := h
    refine ⟨hacc, ?_, ?_, pendingWritten_enqueue hw hroom hwritten _, memWrite_wf hmem _ _⟩
    · rw [pendingCount_enqueue hw hroom]; exact Nat.lt_of_not_le hroom
    · intro _
      rw [pendingCount_enqueue hw hroom]; exact Nat.le_add_left 1 _

theorem blockInv_emitBlock (hw : 16 ≤ accW) {x : Sample} {b b' : Block accW clkW curW cbW}
    {events : List (Event cbW)} (h : blockInv b) (he : emitBlock x b = .ok (b', events)) :
    blockInv b' := by
  have hword := blockInv_emitWord hw h x
  obtain ⟨-, ⟨rfl, -, -⟩ | ⟨a, hhead, -, rfl, -⟩⟩ := emitBlock_ok he
  · exact hword
  · exact blockInv_fire hword hhead

/-- Every command that completes keeps the invariant, at all widths of R5. -/
theorem blockInv_runCommand (hacc : 16 ≤ accW) (hcur : 5 ≤ curW) {c : Command clkW cbW}
    {b b' : Block accW clkW curW cbW} {events : List (Event cbW)} (h : blockInv b)
    (hc : runCommand c b = .ok (b', events)) : blockInv b' := by
  cases c with
  | emit x => exact blockInv_emitBlock hacc h hc
  | schedAbs t cb => exact blockInv_enqueue hcur h hc
  | schedRel d cb => exact blockInv_enqueue hcur h hc
  | ret =>
    obtain ⟨hp, rfl, -⟩ := retBlock_ok hc
    exact blockInv_closeWindow hcur h hp

end Invariant

/-! ### Refusals -/

section Refusals

variable {accW clkW curW cbW : Nat}

theorem enqueue_ne_error (t : BitVec clkW) (cb : BitVec cbW) (b : Block accW clkW curW cbW)
    (r : Refusal) : enqueue t cb b ≠ .error r := by
  rcases enqueue_cases t cb b with ⟨-, h⟩ | ⟨-, h⟩ <;> simp [h]

/-- The poll of the head is refused on an unwritten slot only (R30). -/
theorem pollHead_error {b : Block accW clkW curW cbW} {r : Refusal} (h : pollHead b = .error r) :
    r = .unwrittenSlot ∧ headView b = .unwritten := by
  unfold pollHead at h
  split at h
  · cases h
  · cases h
    exact ⟨rfl, by assumption⟩
  · split at h <;> cases h

/-- A refused `EMIT` was issued in a fire window, or its head peek met an unwritten slot (R78, R30). -/
theorem emitBlock_error {x : Sample} {b : Block accW clkW curW cbW} {r : Refusal}
    (h : emitBlock x b = .error r) :
    (r = .emitInFireWindow ∧ b.phase = .firing) ∨ (r = .unwrittenSlot ∧ headView b = .unwritten) := by
  unfold emitBlock at h
  split at h
  · cases h
    exact .inl ⟨rfl, by assumption⟩
  · unfold continueWith at h
    split at h
    · cases h
    · rename_i hpoll
      cases h
      rw [← emitWord_headView x b]
      exact .inr (pollHead_error hpoll)

/-- A refused `RET` was issued outside a fire window (R77). -/
theorem retBlock_error {b : Block accW clkW curW cbW} {r : Refusal} (h : retBlock b = .error r) :
    r = .retOutsideFireWindow ∧ b.phase = .idle := by
  unfold retBlock at h
  split at h
  · cases h
    exact ⟨rfl, by assumption⟩
  · cases h

/-- Where every pending slot is written, a refused command is an `EMIT` in a fire window or a `RET` outside one
(R77, R78, R100). -/
theorem runCommand_error {c : Command clkW cbW} {b : Block accW clkW curW cbW} {r : Refusal}
    (hwritten : pendingWritten b) (h : runCommand c b = .error r) :
    (r = .emitInFireWindow ∧ b.phase = .firing ∧ ∃ x, c = .emit x) ∨
      (r = .retOutsideFireWindow ∧ b.phase = .idle ∧ c = .ret) := by
  cases c with
  | emit x =>
    rcases emitBlock_error h with ⟨hr, hp⟩ | ⟨-, hhead⟩
    · exact .inl ⟨hr, hp, x, rfl⟩
    · exact absurd hhead (headView_ne_unwritten hwritten)
  | schedAbs t cb => exact absurd h (enqueue_ne_error _ _ _ _)
  | schedRel d cb => exact absurd h (enqueue_ne_error _ _ _ _)
  | ret =>
    obtain ⟨hr, hp⟩ := retBlock_error h
    exact .inr ⟨hr, hp, rfl⟩

theorem commandOf_eq_emit {i : Instr} {x : Sample} (h : commandOf i = .emit x) : i = .emit x := by
  cases i <;> cases h
  rfl

theorem commandOf_eq_ret {i : Instr} (h : commandOf i = .ret) : i = .ret := by
  cases i <;> cases h
  rfl

/-- A commit is refused exactly when the effect is, for the same reason. -/
theorem commit_refused_iff {s : State} {e : Effect 32 32 32 16} {r : Refusal} :
    commit s e = .refused r ↔ e = .error r := by
  rcases e with r' | ⟨b, events⟩ <;> simp

/-- A step on a presented word that decodes is the execution of its command with that word taken (R10, R41). -/
theorem step_of_decode {s : State} {w : CmdWord} {rest : List CmdWord} {i : Instr}
    (hp : s.port = w :: rest) (hd : decode w = .ok i) : step s = exec i { s with port := rest } := by
  simp [step, fetch, hp, hd]

/-- A step on a presented word that does not decode is refused (R46). -/
theorem step_of_invalid {s : State} {w : CmdWord} {rest : List CmdWord} {e : Invalid}
    (hp : s.port = w :: rest) (hd : decode w = .error e) : step s = .refused .reservedEncoding := by
  simp [step, fetch, hp, hd]

/-- The three forms of a step: nothing presented, a command, an invalid word. -/
theorem port_cases (s : State) :
    s.port = [] ∨ ∃ w rest, s.port = w :: rest ∧
      ((∃ i, decode w = .ok i) ∨ ∃ e, decode w = .error e) := by
  cases hp : s.port with
  | nil => exact .inl rfl
  | cons w rest =>
    refine .inr ⟨w, rest, rfl, ?_⟩
    cases hd : decode w with
    | ok i => exact .inl ⟨i, rfl⟩
    | error e => exact .inr ⟨e, rfl⟩

/-- Every refused step: the next word is invalid, or its command is refused by the block (R46, R100). -/
theorem step_refused {s : State} {r : Refusal} (h : step s = .refused r) :
    ∃ w rest, s.port = w :: rest ∧
      ((r = .reservedEncoding ∧ ∃ e, decode w = .error e) ∨
        ∃ i, decode w = .ok i ∧ runCommand (commandOf i) s.block = .error r) := by
  rcases port_cases s with hp | ⟨w, rest, hp, ⟨i, hd⟩ | ⟨e, hd⟩⟩
  · simp [step_of_port_nil hp] at h
  · rw [step_of_decode hp hd, exec_eq_commit, commit_refused_iff] at h
    exact ⟨w, rest, hp, .inr ⟨i, hd, h⟩⟩
  · rw [step_of_invalid hp hd] at h
    cases h
    exact ⟨w, rest, hp, .inl ⟨rfl, e, hd⟩⟩

end Refusals

/-! ### The signed difference (R7) -/

section SignedDifference

variable {n : Nat}

/-- The signed difference is the balanced residue of the integer difference modulo `2^CLK_W`. -/
theorem sdiff_eq_bmod (t k : BitVec n) :
    sdiff t k = Int.bmod ((t.toNat : Int) - k.toNat) (2 ^ n) := by
  rw [sdiff_eq, BitVec.toInt_sub, BitVec.toInt_eq_toNat_bmod, BitVec.toInt_eq_toNat_bmod,
    Int.bmod_sub_bmod, Int.sub_bmod_bmod]

/-- A word is negative or zero as a signed number exactly when its negation, unsigned, is at most half the range. -/
theorem toInt_nonpos_iff_toNat_neg_le (hn : 1 ≤ n) (d : BitVec n) :
    d.toInt ≤ 0 ↔ (-d).toNat ≤ 2 ^ (n - 1) := by
  have hhalf : 2 ^ n = 2 * 2 ^ (n - 1) := by rw [← pow_succ', Nat.sub_add_cancel hn]
  have hlt := d.isLt
  rcases Nat.eq_zero_or_pos d.toNat with h0 | hpos
  · have hd : d = 0#n := BitVec.eq_of_toNat_eq (by simpa using h0)
    simp [hd]
  · rw [BitVec.toNat_neg, Nat.mod_eq_of_lt (by omega), BitVec.toInt_eq_toNat_cond]
    split <;> omega

/-- The due window: between 0 and `2^(CLK_W-1)` counts past the target, both ends included. -/
theorem due_iff (hn : 1 ≤ n) (t k : BitVec n) : due t k ↔ (k - t).toNat ≤ 2 ^ (n - 1) := by
  rw [due, sdiff_eq, toInt_nonpos_iff_toNat_neg_le hn, BitVec.neg_sub, BitVec.add_comm,
    ← BitVec.sub_eq_add_neg]

end SignedDifference

/-! ### The statements -/

/-- Settles O59: each part of a command keeps the invariant, and under it the head peek meets no unwritten slot. -/
theorem commandKeepsInvariant : Obligations.CommandKeepsInvariant := by
  intro accW clkW curW cbW hacc _ hcur _
  refine ⟨fun accReset h => blockInv_resetWith hacc h, fun c b hinv => ⟨fun hc => ?_, ?_⟩⟩
  · obtain ⟨-, -, -, hwritten, -⟩ := hinv
    rcases runCommand_error hwritten hc with ⟨hr, -⟩ | ⟨hr, -⟩ <;> cases hr
  · exact fun b' events hc => blockInv_runCommand hacc hcur hinv hc

/-- Settles O35: a refused step is an invalid word or a refused command, and under the invariant a command is refused
only in the wrong phase. -/
theorem refusalsAreClosed : Obligations.RefusalsAreClosed := by
  refine ⟨fun _ f => (nomatch f), fun s r hinv h => ?_⟩
  obtain ⟨-, -, -, hwritten, -⟩ := hinv
  obtain ⟨w, rest, hport, hinvalid | ⟨i, hdecode, hrefused⟩⟩ := step_refused h
  · exact ⟨w, rest, hport, .inl hinvalid⟩
  · refine ⟨w, rest, hport, .inr ?_⟩
    rcases runCommand_error hwritten hrefused with ⟨hr, hp, x, hx⟩ | ⟨hr, hp, hret⟩
    · exact .inl ⟨hr, hp, x, by rw [hdecode, commandOf_eq_emit hx]⟩
    · exact .inr ⟨hr, hp, by rw [hdecode, commandOf_eq_ret hret]⟩

/-- Settles O36: the difference of two counts is a balanced residue, which is at most 0 exactly in the due window. -/
theorem dueWindow : Obligations.DueWindow := fun _ t k hn =>
  ⟨sdiff_eq_bmod t k, due_iff (Nat.one_le_of_lt hn) t k⟩

/-- Settles O8: a step by the form of the port, the idle clause among them. -/
theorem stepRunsDecodedCommand : Obligations.StepRunsDecodedCommand :=
  ⟨fun _ _ _ _ hport hdecode => step_of_decode hport hdecode, fun _ hport => step_of_port_nil hport⟩

end Sys2Proof.Proofs
end

section
/-! PROOFS of the statements of 10_state.md. The rules they need, each said once: what a step that answers a next state
did, the encoder over unbounded integers, what each command does to the pending actions, and the simulation of a block by
one of other widths. -/

namespace Sys2Proof.Proofs

open Sys2Proof.Machine Sys2Proof.Laws

/-! ### Steps and reachable states -/

/-- Every step that answers a next state: the port was empty, or its first word's command completed on the block. -/
theorem step_next_runCommand {s t : State} (h : step s = .next t) :
    t = s ∨ ∃ w rest i events, s.port = w :: rest ∧ decode w = .ok i ∧
      runCommand (commandOf i) s.block = .ok (t.block, events) ∧ t.trace = s.trace ++ events := by
  rcases step_next h with ⟨-, rfl⟩ | ⟨w, rest, i, hport, hdecode, hexec⟩
  · exact .inl rfl
  · obtain ⟨b, events, hrun, rfl⟩ := exec_next_iff.1 hexec
    exact .inr ⟨w, rest, i, events, hport, hdecode, hrun, rfl⟩

/-- What holds at reset, whatever words are presented, and is kept by every step holds of every reachable state. -/
theorem reachable_of_invariant {P : State → Prop}
    (hreset : ∀ words, P { State.reset with port := words })
    (hstep : ∀ s t, P s → step s = .next t → P t) {s : State} (h : Reachable s) : P s := by
  induction h with
  | reset words => exact hreset words
  | step _ hnext ih => exact hstep _ _ ih hnext

theorem blockInv_step {s t : State} (h : blockInv s.block) (hstep : step s = .next t) :
    blockInv t.block := by
  rcases step_next_runCommand hstep with rfl | ⟨_, _, _, _, -, -, hrun, -⟩
  · exact h
  · exact blockInv_runCommand (by decide) (by decide) h hrun

theorem blockInv_reset : blockInv (Block.reset 32 32 32 16) :=
  blockInv_resetWith (by decide) (by decide)

theorem blockInv_of_reachable {s : State} (h : Reachable s) : blockInv s.block :=
  reachable_of_invariant (P := fun s => blockInv s.block) (fun _ => blockInv_reset)
    (fun _ _ => blockInv_step) h

/-! ### The encoder over unbounded integers (R13, R53, R54) -/

section Encoder

variable {accW : Nat}

/-- In the reachable range a bit-step is the one over the integers: its result is a value of the range, which every
accumulator width of R5 stores exactly. -/
theorem bitStep_eq_viewBitStep (hw : 16 ≤ accW) {acc : BitVec accW} (h : accInRange acc)
    (s : Sample) :
    (bitStep acc s).1 = (viewBitStep acc.toInt s.toInt).1 ∧
      (bitStep acc s).2.toInt = (viewBitStep acc.toInt s.toInt).2 := by
  obtain ⟨hlow, hhigh⟩ := h
  have hmin : -32768 ≤ s.toInt := s.le_toInt
  have hmax : s.toInt < 32768 := s.toInt_lt
  rcases le_or_gt acc.toInt s.toInt with hle | hgt
  · have hexact := toInt_ofInt_of_accResetLegal hw (x := acc.toInt + (32767 - s.toInt))
      ⟨by omega, by omega⟩
    simp [bitStep_one hle, viewBitStep, hle, hexact]
  · have hexact := toInt_ofInt_of_accResetLegal hw (x := acc.toInt + (-32768 - s.toInt))
      ⟨by omega, by omega⟩
    simp [bitStep_zero hgt, viewBitStep, not_le.2 hgt, hexact]

/-- Shifting a bit in doubles the word and adds the bit. -/
theorem shiftIn_ofNat (k : Nat) (bit : Bool) :
    shiftIn (BitVec.ofNat 32 k) bit = BitVec.ofNat 32 (2 * k + bit.toNat) := by
  have hdisjoint : (BitVec.ofNat 32 k <<< 1) &&& BitVec.setWidth 32 (BitVec.ofBool bit) = 0#32 := by
    apply BitVec.eq_of_getLsbD_eq
    intro i hi
    cases i <;> simp
  rw [shiftIn, ← BitVec.add_eq_or_of_and_eq_zero _ _ hdisjoint]
  apply BitVec.eq_of_toNat_eq
  cases bit <;> simp [Nat.shiftLeft_eq] <;> omega

/-- Bit-steps in the reachable range are those over the integers: the accumulator they leave, and the bits they shift in
behind `k`. -/
theorem encodeSteps_eq_viewEncode (hw : 16 ≤ accW) (s : Sample) (n k : Nat) {acc : BitVec accW}
    (h : accInRange acc) :
    (encodeSteps s n (BitVec.ofNat 32 k) acc).1 =
        BitVec.ofNat 32 ((viewEncode s.toInt n acc.toInt).1.foldl (fun w bit => 2 * w + bit.toNat) k) ∧
      (encodeSteps s n (BitVec.ofNat 32 k) acc).2.toInt = (viewEncode s.toInt n acc.toInt).2 := by
  induction n generalizing k acc with
  | zero => exact ⟨rfl, rfl⟩
  | succ n ih =>
    obtain ⟨hbit, hacc⟩ := bitStep_eq_viewBitStep hw h s
    rw [encodeSteps_succ, shiftIn_ofNat, viewEncode, List.foldl_cons, ← hbit, ← hacc]
    exact ih _ (accInRange_bitStep hw h s)

/-- The word of a sample, as a function of the accumulator's value alone. -/
theorem encodeSample_word (hw : 16 ≤ accW) {acc : BitVec accW} (h : accInRange acc) (s : Sample) :
    (encodeSample acc s).1 = packBits (viewEncode s.toInt 32 acc.toInt).1 :=
  (encodeSteps_eq_viewEncode hw s 32 0 h).1

/-- The accumulator a sample leaves, as a function of the value it met. -/
theorem encodeSample_acc_toInt (hw : 16 ≤ accW) {acc : BitVec accW} (h : accInRange acc)
    (s : Sample) : (encodeSample acc s).2.toInt = (viewEncode s.toInt 32 acc.toInt).2 :=
  (encodeSteps_eq_viewEncode hw s 32 0 h).2

/-- From the reset accumulator the negative rail encodes to zeros and leaves 0 (R118). -/
theorem encodeSample_reset_rail :
    encodeSample (Block.reset 32 32 32 16).acc (wrap 16 (-32768)) = (0#32, 0#32) := by decide

end Encoder

/-! ### The pending actions (R17) -/

section Pending

variable {accW clkW curW cbW : Nat}

theorem enqueue_of_full {t : BitVec clkW} {cb : BitVec cbW} {b : Block accW clkW curW cbW}
    (h : qFull b) : enqueue t cb b = .ok (b, []) := if_pos h

theorem enqueue_of_room {t : BitVec clkW} {cb : BitVec cbW} {b : Block accW clkW curW cbW}
    (h : ¬ qFull b) :
    enqueue t cb b = .ok ({ b with
      slots := memWrite b.slots (slotIndex b.qin) ⟨t, cb⟩
      qin := increment b.qin }, []) := if_neg h

/-- `Enqueue` that completes: no event, and the request dropped or stored (R64, R67). -/
theorem enqueue_ok {t : BitVec clkW} {cb : BitVec cbW} {b b' : Block accW clkW curW cbW}
    {events : List (Event cbW)} (h : enqueue t cb b = .ok (b', events)) :
    events = [] ∧ (b' = b ∨ (¬ qFull b ∧ b' = { b with
      slots := memWrite b.slots (slotIndex b.qin) ⟨t, cb⟩
      qin := increment b.qin })) := by
  rcases enqueue_cases t cb b with ⟨-, hdrop⟩ | ⟨hroom, hstore⟩
  · cases hdrop.symm.trans h
    exact ⟨rfl, .inl rfl⟩
  · cases hstore.symm.trans h
    exact ⟨rfl, .inr ⟨hroom, rfl⟩⟩

/-- An accepted request stands behind all that are pending (R64, R68). -/
theorem pendingActions_enqueue (hw : 5 ≤ curW) {b : Block accW clkW curW cbW} (h : ¬ qFull b)
    (a : Action clkW cbW) :
    pendingActions { b with
      slots := memWrite b.slots (slotIndex b.qin) a
      qin := increment b.qin } = pendingActions b ++ [a] := by
  rw [pendingActions, pendingCount_enqueue hw h, List.range_succ, List.filterMap_append]
  congr 1
  · refine List.filterMap_congr fun j hj => ?_
    exact memRead_memWrite_other _ _ (pendingIndex_ne_slotIndex_qin hw h (List.mem_range.1 hj))
  · change [pendingCount b].filterMap (fun j =>
      memRead (memWrite b.slots (slotIndex b.qin) a) (pendingIndex b j)) = [a]
    simp [← slotIndex_qin_eq_pendingIndex]

/-- Where something is pending and its slot is written, the head is the oldest pending action and the rest are what a
`RET` leaves (R17, R77). -/
theorem pendingActions_eq_cons (hw : 5 ≤ curW) {b : Block accW clkW curW cbW}
    (h : 1 ≤ pendingCount b) {a : Action clkW cbW}
    (hread : memRead b.slots (slotIndex b.qout) = some a) :
    pendingActions b = a :: pendingActions (closeWindow b) := by
  rw [pendingActions, pendingActions, pendingCount_ret hw h]
  obtain ⟨n, hn⟩ := Nat.exists_eq_add_of_le' h
  simp only [hn, Nat.add_sub_cancel, List.range_succ_eq_map, List.filterMap_cons, pendingIndex_zero,
    hread, List.filterMap_map, pendingIndex_closeWindow, closeWindow_slots]
  rfl

/-- Reclaiming the head drops the oldest pending action (R77). -/
theorem pendingActions_closeWindow (hw : 5 ≤ curW) {b : Block accW clkW curW cbW}
    (h : 1 ≤ pendingCount b) (hwritten : pendingWritten b) :
    pendingActions (closeWindow b) = (pendingActions b).tail := by
  obtain ⟨a, hread⟩ := Option.isSome_iff_exists.1 (hwritten 0 h)
  rw [pendingIndex_zero] at hread
  rw [pendingActions_eq_cons hw h hread, List.tail_cons]

theorem pendingActions_of_headView_empty {b : Block accW clkW curW cbW}
    (h : headView b = .empty) : pendingActions b = [] := by
  rw [pendingActions, (qEmpty_iff b).1 (headView_empty_iff.1 h)]
  rfl

theorem pendingActions_of_headView_pending (hw : 5 ≤ curW) {b : Block accW clkW curW cbW}
    {a : Action clkW cbW} (h : headView b = .pending a) :
    pendingActions b = a :: pendingActions (closeWindow b) := by
  obtain ⟨hne, hread⟩ := headView_pending_iff.1 h
  exact pendingActions_eq_cons hw (Nat.one_le_iff_ne_zero.2 (mt (qEmpty_iff b).2 hne)) hread

/-- A command that completes keeps the pending actions and may add one behind them, or is a `RET` that takes the oldest
(R26, R116). -/
theorem pendingActions_runCommand (hw : 5 ≤ curW) {c : Command clkW cbW}
    {b b' : Block accW clkW curW cbW} {events : List (Event cbW)} (hinv : blockInv b)
    (h : runCommand c b = .ok (b', events)) :
    pendingActions b <+: pendingActions b' ∨
      (b.phase = .firing ∧ c = .ret ∧ pendingActions b' = (pendingActions b).tail) := by
  have henqueue {t : BitVec clkW} {cb : BitVec cbW} (h : enqueue t cb b = .ok (b', events)) :
      pendingActions b <+: pendingActions b' := by
    obtain ⟨-, rfl | ⟨hroom, rfl⟩⟩ := enqueue_ok h
    · exact List.prefix_rfl
    · exact pendingActions_enqueue hw hroom _ ▸ List.prefix_append _ _
  cases c with
  | emit x =>
    obtain ⟨-, ⟨rfl, -, -⟩ | ⟨a, -, -, rfl, -⟩⟩ := emitBlock_ok h
    · exact .inl List.prefix_rfl
    · exact .inl List.prefix_rfl
  | schedAbs t cb => exact .inl (henqueue h)
  | schedRel d cb => exact .inl (henqueue h)
  | ret =>
    obtain ⟨hphase, rfl, -⟩ := retBlock_ok h
    obtain ⟨-, -, hrunning, hwritten, -⟩ := hinv
    exact .inr ⟨hphase, rfl, pendingActions_closeWindow hw (hrunning hphase) hwritten⟩

end Pending

/-! ### `EMIT` by the phase and by what stands at the queue's head (R72, R78) -/

section Emit

variable {accW clkW curW cbW : Nat} {x : Sample} {b : Block accW clkW curW cbW}

theorem pollHead_of_empty (hhead : headView b = .empty) : pollHead b = .ok (b, []) := by
  simp [pollHead, hhead]

theorem pollHead_of_due {a : Action clkW cbW} (hhead : headView b = .pending a)
    (hdue : due a.target b.sclk) : pollHead b = .ok (fire a.cb b) := by
  simp [pollHead, hhead, hdue]

theorem pollHead_of_not_due {a : Action clkW cbW} (hhead : headView b = .pending a)
    (hdue : ¬ due a.target b.sclk) : pollHead b = .ok (b, []) := by
  simp [pollHead, hhead, hdue]

theorem emitBlock_of_firing (hp : b.phase = .firing) :
    emitBlock x b = .error .emitInFireWindow := by
  simp [emitBlock, hp]

theorem emitBlock_of_idle (hp : b.phase = .idle) :
    emitBlock x b = continueWith (emitWord x b) pollHead := by
  simp [emitBlock, hp]

/-- In the host context the word comes first, then what the poll of the head does. -/
theorem emitBlock_of_poll (hp : b.phase = .idle) {r : Block accW clkW curW cbW × List (Event cbW)}
    (hpoll : pollHead (emitWord x b).1 = .ok r) :
    emitBlock x b = .ok (r.1, .word (encodeSample b.acc x).1 :: r.2) := by
  rw [emitBlock_of_idle hp, continueWith, hpoll]
  rfl

end Emit

/-! ### The block as a clock, an integer accumulator and a list (R17, R64, R68, R72, R77) -/

section View

variable {accW curW : Nat} {b : Block accW 32 curW 16} {x : Sample} {v : QueueView}

theorem viewEmit_of_nil (h : v.pending = []) :
    viewEmit x v = ({ v with acc := (viewEncode x.toInt 32 v.acc).2, sclk := v.sclk + 1 },
      [.word (packBits (viewEncode x.toInt 32 v.acc).1)]) := by
  simp [viewEmit, h]

theorem viewEmit_of_due {a : Action 32 16} {rest : List (Action 32 16)} (h : v.pending = a :: rest)
    (hdue : (v.sclk + 1 - a.target).toNat ≤ 2147483648) :
    viewEmit x v = ({ v with
        acc := (viewEncode x.toInt 32 v.acc).2, sclk := v.sclk + 1, phase := .firing },
      [.word (packBits (viewEncode x.toInt 32 v.acc).1), .fire a.cb]) := by
  simp only [viewEmit, h, if_pos hdue]

theorem viewEmit_of_not_due {a : Action 32 16} {rest : List (Action 32 16)}
    (h : v.pending = a :: rest) (hdue : ¬ (v.sclk + 1 - a.target).toNat ≤ 2147483648) :
    viewEmit x v = ({ v with acc := (viewEncode x.toInt 32 v.acc).2, sclk := v.sclk + 1 },
      [.word (packBits (viewEncode x.toInt 32 v.acc).1)]) := by
  simp only [viewEmit, h, if_neg hdue]

/-- Encoding a sample and advancing the clock, seen on the view. -/
theorem viewOf_emitWord (hw : 16 ≤ accW) (h : accInRange b.acc) :
    viewOf (emitWord x b).1 = { viewOf b with
      acc := (viewEncode x.toInt 32 (viewOf b).acc).2, sclk := (viewOf b).sclk + 1 } := by
  rw [viewOf, emitWord_acc, encodeSample_acc_toInt hw h]
  rfl

/-- `EMIT` refines the view's: the same word, and the same firing of the oldest action within the due window. -/
theorem sameResult_viewEmit (hacc : 16 ≤ accW) (hcur : 5 ≤ curW) (h : blockInv b)
    (hp : b.phase = .idle) :
    sameResult (fun c v => viewOf c = v) (emitBlock x b) (.ok (viewEmit x (viewOf b))) := by
  obtain ⟨hrange, -, -, hwritten, -⟩ := h
  have hview := viewOf_emitWord (x := x) hacc hrange
  have hword := encodeSample_word hacc hrange x
  cases hhead : headView (emitWord x b).1 with
  | empty =>
    rw [emitBlock_of_poll hp (pollHead_of_empty hhead), hword,
      viewEmit_of_nil (pendingActions_of_headView_empty hhead)]
    exact ⟨hview, rfl⟩
  | unwritten => exact absurd hhead (headView_ne_unwritten hwritten)
  | pending a =>
    have hpending := pendingActions_of_headView_pending hcur hhead
    have hwindow : due a.target (emitWord x b).1.sclk ↔
        ((viewOf b).sclk + 1 - a.target).toNat ≤ 2147483648 := due_iff (by decide) _ _
    by_cases hdue : due a.target (emitWord x b).1.sclk
    · rw [emitBlock_of_poll hp (pollHead_of_due hhead hdue), hword,
        viewEmit_of_due hpending (hwindow.1 hdue)]
      exact ⟨congrArg (fun v : QueueView => { v with phase := .firing }) hview, rfl⟩
    · rw [emitBlock_of_poll hp (pollHead_of_not_due hhead hdue), hword,
        viewEmit_of_not_due hpending (mt hwindow.2 hdue)]
      exact ⟨hview, rfl⟩

/-- `Enqueue` refines appending to a list of at most 16. -/
theorem sameResult_viewEnqueue (hcur : 5 ≤ curW) (hwritten : pendingWritten b) (t : Count)
    (cb : Tag) :
    sameResult (fun c v => viewOf c = v) (enqueue t cb b) (.ok (viewEnqueue t cb (viewOf b), [])) := by
  have hfull_iff : 16 ≤ (viewOf b).pending.length ↔ qFull b :=
    iff_of_eq (congrArg (16 ≤ ·) (pendingActions_length hwritten))
  by_cases hfull : qFull b
  · rw [enqueue_of_full hfull, viewEnqueue, if_pos (hfull_iff.2 hfull)]
    exact ⟨rfl, rfl⟩
  · rw [enqueue_of_room hfull, viewEnqueue, if_neg (mt hfull_iff.1 hfull)]
    exact ⟨congrArg (fun pending => { viewOf b with pending })
      (pendingActions_enqueue hcur hfull ⟨t, cb⟩), rfl⟩

/-- Every command refines its effect on the view, refusals included. -/
theorem sameResult_viewCommand (hacc : 16 ≤ accW) (hcur : 5 ≤ curW) (h : blockInv b) (i : Instr) :
    sameResult (fun c v => viewOf c = v) (runCommand (commandOf i) b) (viewCommand i (viewOf b)) := by
  have ⟨_, _, hrunning, hwritten, _⟩ := h
  have hphase : (viewOf b).phase = b.phase := rfl
  cases i with
  | emit x =>
    change sameResult _ (emitBlock x b) _
    cases hp : b.phase with
    | idle =>
      simp only [viewCommand, hphase, hp]
      exact sameResult_viewEmit hacc hcur h hp
    | firing => simp [viewCommand, hphase, hp, emitBlock_of_firing]
  | schedAbs t cb => exact sameResult_viewEnqueue hcur hwritten t cb
  | schedRel d cb => exact sameResult_viewEnqueue hcur hwritten (b.sclk + d) cb
  | ret =>
    change sameResult _ (retBlock b) _
    cases hp : b.phase with
    | idle => simp [viewCommand, hphase, hp, retBlock]
    | firing =>
      simp only [viewCommand, hphase, hp, retBlock]
      exact ⟨congrArg (fun pending => { viewOf b with pending, phase := .idle })
        (pendingActions_closeWindow hcur (hrunning hp) hwritten), rfl⟩

end View

/-! ### Results that agree -/

section SameResult

variable {β γ : Type} {cbW : Nat} {rel : β → γ → Prop}

/-- Two results that agree are refused for one reason, or completed with one list of events. -/
theorem sameResult_cases {p : Except Refusal (β × List (Event cbW))}
    {q : Except Refusal (γ × List (Event cbW))} (h : sameResult rel p q) :
    (∃ r, p = .error r ∧ q = .error r) ∨
      ∃ b c events, p = .ok (b, events) ∧ q = .ok (c, events) ∧ rel b c := by
  rcases p with r | ⟨b, e⟩ <;> rcases q with r' | ⟨c, f⟩
  · cases h; exact .inl ⟨r, rfl, rfl⟩
  · exact h.elim
  · exact h.elim
  · obtain ⟨hrel, rfl⟩ := h
    exact .inr ⟨b, c, e, rfl, rfl, hrel⟩

/-- Second parts that agree, behind first parts with the same events, agree as a whole. -/
theorem sameResult_continueWith {accW clkW curW accW' curW' : Nat}
    {rel : Block accW clkW curW cbW → Block accW' clkW curW' cbW → Prop}
    {b : Block accW clkW curW cbW} {c : Block accW' clkW curW' cbW} (events : List (Event cbW))
    {f : Block accW clkW curW cbW → Effect accW clkW curW cbW}
    {g : Block accW' clkW curW' cbW → Effect accW' clkW curW' cbW} (h : sameResult rel (f b) (g c)) :
    sameResult rel (continueWith (b, events) f) (continueWith (c, events) g) := by
  rcases sameResult_cases h with ⟨r, hf, hg⟩ | ⟨b', c', e, hf, hg, hrel⟩
  · simp [continueWith, hf, hg]
  · simp only [continueWith, hf, hg]
    exact ⟨hrel, rfl⟩

end SameResult

/-! ### Blocks of other accumulator and cursor widths (R20, R58) -/

section Widths

variable {accW curW accW' curW' clkW cbW : Nat} {b : Block accW clkW curW cbW}
  {c : Block accW' clkW curW' cbW}

/-- The slot after a cursor's, since 16 divides `2^CUR_W` (R5, R28). -/
theorem slotIndex_increment (hw : 4 ≤ curW) (p : BitVec curW) :
    slotIndex (increment p) = slotIndex p + 1 := by
  simp only [slotIndex, increment, ← BitVec.setWidth_eq_extractLsb' hw, BitVec.setWidth_add _ _ hw,
    BitVec.setWidth_ofNat_of_le hw]
  rfl

/-- The reset values are the same numbers at every width (R25). -/
theorem sameObservable_resetWith (hw : 16 ≤ accW) (hw' : 16 ≤ accW') {accReset : Int}
    (h : accResetLegal accReset) :
    sameObservable (Block.resetWith accW clkW curW cbW accReset)
      (Block.resetWith accW' clkW curW' cbW accReset) := by
  refine ⟨?_, rfl, ?_, ?_, ?_, rfl, rfl⟩
  · rw [resetWith_acc, resetWith_acc, toInt_ofInt_of_accResetLegal hw h,
      toInt_ofInt_of_accResetLegal hw' h]
  · simp [pendingCount]
  · simp [slotIndex]
  · simp [slotIndex]

/-- The head peek is an observation. -/
theorem headView_eq_of_sameObservable (h : sameObservable b c) : headView b = headView c := by
  obtain ⟨-, -, hcount, -, hout, hslots, -⟩ := h
  have hempty : qEmpty b ↔ qEmpty c := by rw [qEmpty_iff, qEmpty_iff, hcount]
  simp only [headView, hempty, hslots, hout]

/-- The word of a sample and the value it leaves are the same at every width, from the same value in the range. -/
theorem sameObservable_emitWord (hw : 16 ≤ accW) (hw' : 16 ≤ accW') (hb : accInRange b.acc)
    (hc : accInRange c.acc) (h : sameObservable b c) (x : Sample) :
    sameObservable (emitWord x b).1 (emitWord x c).1 ∧ (emitWord x b).2 = (emitWord x c).2 := by
  obtain ⟨hacc, hsclk, hrest⟩ := h
  refine ⟨⟨?_, congrArg increment hsclk, hrest⟩, ?_⟩
  · rw [emitWord_acc, emitWord_acc, encodeSample_acc_toInt hw hb, encodeSample_acc_toInt hw' hc, hacc]
  · rw [emitWord_events, emitWord_events, encodeSample_word hw hb, encodeSample_word hw' hc, hacc]

theorem sameResult_pollHead (h : sameObservable b c) :
    sameResult sameObservable (pollHead b) (pollHead c) := by
  have hhead := headView_eq_of_sameObservable h
  have ⟨hacc, hsclk, hcount, hin, hout, hslots, _⟩ := h
  cases hview : headView c with
  | empty =>
    rw [pollHead_of_empty hview, pollHead_of_empty (hhead.trans hview)]
    exact ⟨h, rfl⟩
  | unwritten => simp [pollHead, hhead, hview]
  | pending a =>
    rw [hview] at hhead
    by_cases hdue : due a.target c.sclk
    · rw [pollHead_of_due hview hdue, pollHead_of_due hhead (hsclk ▸ hdue)]
      exact ⟨⟨hacc, hsclk, hcount, hin, hout, hslots, rfl⟩, rfl⟩
    · rw [pollHead_of_not_due hview hdue, pollHead_of_not_due hhead (hsclk ▸ hdue)]
      exact ⟨h, rfl⟩

theorem sameResult_emitBlock (hw : 16 ≤ accW) (hw' : 16 ≤ accW') (hb : accInRange b.acc)
    (hc : accInRange c.acc) (h : sameObservable b c) (x : Sample) :
    sameResult sameObservable (emitBlock x b) (emitBlock x c) := by
  obtain ⟨hword, hevents⟩ := sameObservable_emitWord hw hw' hb hc h x
  obtain ⟨-, -, -, -, -, -, hphase⟩ := h
  cases hp : c.phase with
  | firing => simp [emitBlock_of_firing, hphase, hp]
  | idle =>
    rw [emitBlock_of_idle hp, emitBlock_of_idle (hphase.trans hp), ← Prod.mk.eta (p := emitWord x b),
      hevents]
    exact sameResult_continueWith _ (sameResult_pollHead hword)

theorem sameResult_enqueue (hw : 5 ≤ curW) (hw' : 5 ≤ curW') (h : sameObservable b c)
    (t : BitVec clkW) (cb : BitVec cbW) :
    sameResult sameObservable (enqueue t cb b) (enqueue t cb c) := by
  have ⟨hacc, hsclk, hcount, hin, hout, hslots, hphase⟩ := h
  have hfull_iff : qFull b ↔ qFull c := by rw [qFull, qFull, hcount]
  by_cases hfull : qFull c
  · rw [enqueue_of_full hfull, enqueue_of_full (hfull_iff.2 hfull)]
    exact ⟨h, rfl⟩
  · have hroom := mt hfull_iff.1 hfull
    rw [enqueue_of_room hfull, enqueue_of_room hroom]
    refine ⟨⟨hacc, hsclk, ?_, ?_, hout, ?_, hphase⟩, rfl⟩
    · rw [pendingCount_enqueue hw hroom, pendingCount_enqueue hw' hfull, hcount]
    · rw [slotIndex_increment (by omega), slotIndex_increment (by omega), hin]
    · rw [hslots, hin]

theorem sameResult_retBlock (hw : 5 ≤ curW) (hw' : 5 ≤ curW') (hb : blockInv b)
    (h : sameObservable b c) : sameResult sameObservable (retBlock b) (retBlock c) := by
  obtain ⟨-, -, hrunning, -⟩ := hb
  obtain ⟨hacc, hsclk, hcount, hin, hout, hslots, hphase⟩ := h
  cases hp : b.phase with
  | idle => simp [retBlock, hp, ← hphase]
  | firing =>
    have hpending := hrunning hp
    simp only [retBlock, hp, ← hphase]
    refine ⟨⟨hacc, hsclk, ?_, hin, ?_, hslots, rfl⟩, rfl⟩
    · rw [pendingCount_ret hw hpending, pendingCount_ret hw' (hcount ▸ hpending), hcount]
    · rw [closeWindow_qout, closeWindow_qout, slotIndex_increment (by omega),
        slotIndex_increment (by omega), hout]

/-- Every command answers alike on blocks that no observation tells apart. -/
theorem sameResult_runCommand (hacc : 16 ≤ accW) (hacc' : 16 ≤ accW') (hcur : 5 ≤ curW)
    (hcur' : 5 ≤ curW') (hb : blockInv b) (hc : blockInv c) (h : sameObservable b c)
    (cmd : Command clkW cbW) :
    sameResult sameObservable (runCommand cmd b) (runCommand cmd c) := by
  have ⟨hrange, _⟩ := hb
  obtain ⟨hrange', -⟩ := hc
  have ⟨_, hsclk, _⟩ := h
  cases cmd with
  | emit x => exact sameResult_emitBlock hacc hacc' hrange hrange' h x
  | schedAbs t cb => exact sameResult_enqueue hcur hcur' h t cb
  | schedRel d cb =>
    simp only [runCommand, schedRelBlock, hsclk]
    exact sameResult_enqueue hcur hcur' h _ cb
  | ret => exact sameResult_retBlock hcur hcur' hb h

/-- So does every list of commands: the invariant carries the accumulator's range and the queue's bounds along. -/
theorem sameResult_runBlock (hacc : 16 ≤ accW) (hacc' : 16 ≤ accW') (hcur : 5 ≤ curW)
    (hcur' : 5 ≤ curW') (hb : blockInv b) (hc : blockInv c) (h : sameObservable b c)
    (cmds : List (Command clkW cbW)) :
    sameResult sameObservable (runBlock cmds b) (runBlock cmds c) := by
  induction cmds generalizing b c with
  | nil => exact ⟨h, rfl⟩
  | cons cmd rest ih =>
    rcases sameResult_cases (sameResult_runCommand hacc hacc' hcur hcur' hb hc h cmd) with
      ⟨r, hrb, hrc⟩ | ⟨b', c', events, hrb, hrc, hrel⟩
    · simp [runBlock, hrb, hrc]
    · simp only [runBlock, hrb, hrc]
      exact sameResult_continueWith events (ih (blockInv_runCommand hacc hcur hb hrb)
        (blockInv_runCommand hacc' hcur' hc hrc) hrel)

end Widths

/-! ### Firings and returns (R22, R75, R77) -/

/-- The firing that no `RET` has answered yet, as a count: the callback that is running. -/
def runningCallbacks (p : Phase) : BitVec 32 :=
  match p with
  | .idle => 0
  | .firing => 1

theorem cursorCountsFires_iff (s : State) :
    cursorCountsFires s ↔ s.block.qout + runningCallbacks s.block.phase =
      BitVec.ofNat 32 (firesOf s.trace).length := Iff.rfl

/-- A command adds its firings to the actions reclaimed and running: `EMIT` starts what it fires, `RET` reclaims what was
running. -/
theorem runCommand_fires {accW clkW cbW : Nat} {c : Command clkW cbW}
    {b b' : Block accW clkW 32 cbW} {events : List (Event cbW)}
    (h : runCommand c b = .ok (b', events)) :
    b'.qout + runningCallbacks b'.phase =
      b.qout + runningCallbacks b.phase + BitVec.ofNat 32 (firesOf events).length := by
  have henqueue {t : BitVec clkW} {cb : BitVec cbW} (h : enqueue t cb b = .ok (b', events)) :
      b'.qout + runningCallbacks b'.phase =
        b.qout + runningCallbacks b.phase + BitVec.ofNat 32 (firesOf events).length := by
    obtain ⟨rfl, rfl | ⟨-, rfl⟩⟩ := enqueue_ok h <;> simp
  cases c with
  | emit x =>
    obtain ⟨hp, ⟨rfl, rfl, -⟩ | ⟨a, -, -, rfl, rfl⟩⟩ := emitBlock_ok h
    · simp
    · simp [hp, runningCallbacks, firesOf]
  | schedAbs t cb => exact henqueue h
  | schedRel d cb => exact henqueue h
  | ret =>
    obtain ⟨hp, rfl, rfl⟩ := retBlock_ok h
    simp [hp, runningCallbacks, increment]

theorem cursorCountsFires_step {s t : State} (h : cursorCountsFires s) (hstep : step s = .next t) :
    cursorCountsFires t := by
  rcases step_next_runCommand hstep with rfl | ⟨_, _, _, events, -, -, hrun, htrace⟩
  · exact h
  · rw [cursorCountsFires_iff] at h ⊢
    rw [runCommand_fires hrun, h, htrace, firesOf_append, List.length_append, BitVec.ofNat_add]

/-! ### The statements -/

/-- Settles O30: a step is an idle one or a completed command, and every completed command keeps the invariant. -/
theorem stepKeepsInvariant : Obligations.StepKeepsInvariant := fun _ _ => blockInv_step

/-- Settles O39: every command on a block of the invariant refines the same command on its view. -/
theorem refinesQueueView : Obligations.RefinesQueueView := fun i _ h =>
  sameResult_viewCommand (by decide) (by decide) h i

/-- Settles O12: a bit-step of the range is the integer one, and the range is part of the invariant that reachable states
keep. -/
theorem accumulatorRange : Obligations.AccumulatorRange := by
  refine ⟨fun n acc s hw h => ⟨accInRange_bitStep hw h s, ?_⟩, fun s h => (blockInv_of_reachable h).1⟩
  obtain ⟨-, hexact⟩ := bitStep_eq_viewBitStep hw h s
  rw [hexact, viewBitStep]
  split <;> simp

/-- Settles O18: the reset blocks of both widths look alike, and every list of commands keeps them so. -/
theorem widthIndependence : Obligations.WidthIndependence := by
  intro accW clkW curW cbW accReset cs hacc hcur hreset
  exact sameResult_runBlock hacc (by decide) hcur (by decide) (blockInv_resetWith hacc hreset)
    (blockInv_resetWith (by decide) hreset) (sameObservable_resetWith hacc (by decide) hreset) cs

/-- Settles O33: reset starts with neither firings nor reclaimed actions, and every step keeps the account. -/
theorem cursorCountsFirings : Obligations.CursorCountsFirings :=
  ⟨fun _ _ => cursorCountsFires_step, fun _ => reachable_of_invariant (fun _ => rfl) fun _ _ =>
    cursorCountsFires_step⟩

/-- Settles O40: a step's command keeps the pending actions in front, or is a `RET` that takes the oldest. -/
theorem pendingLeavesOnlyByRet : Obligations.PendingLeavesOnlyByRet := by
  intro s t hinv hstep
  rcases step_next_runCommand hstep with rfl | ⟨w, rest, i, _, hport, hdecode, hrun, -⟩
  · exact .inl List.prefix_rfl
  · refine (pendingActions_runCommand (by decide) hinv hrun).imp_right fun ⟨hphase, hret, htail⟩ => ?_
    exact ⟨hphase, ⟨w, rest, hport, commandOf_eq_ret hret ▸ hdecode⟩, htail⟩

/-- Settles O29: the default `ACC_RESET` is legal, and at reset both counts are 0. -/
theorem resetMeetsInvariant : Obligations.ResetMeetsInvariant := ⟨blockInv_reset, rfl, rfl⟩

/-- Settles O50: the block after `rst` is the reset block, whose empty queue makes the first `EMIT` a word alone. -/
theorem resetInput : Obligations.ResetInput := by
  intro s
  refine ⟨rfl, rfl, rfl, rfl, rfl, fun _ => rfl, rfl, ?_⟩
  have hempty : headView (emitWord (wrap 16 (-32768)) (applyRst s).block).1 = .empty :=
    headView_empty_iff.2 rfl
  refine ⟨_, exec_next_iff.2 ⟨_, _, emitBlock_of_poll rfl (pollHead_of_empty hempty), rfl⟩, ?_, ?_, rfl⟩
  · rw [applyRst_block, encodeSample_reset_rail, applyRst_trace]
    rfl
  · rw [applyRst_block, emitWord_acc, encodeSample_reset_rail]
    rfl

end Sys2Proof.Proofs
end

section
/-! PROOFS of the statements of 20_memory.md. The rules they need, each said once: an encoded command decodes to itself
and a run of the machine unfolds one step, every command keeps the memory's form, the poll of the head sees no other slot. -/

namespace Sys2Proof.Proofs

open Sys2Proof.Machine Sys2Proof.Laws

/-! ### Encoded commands at the port (R36, R41) -/

/-- The word that spells a command decodes to it: each format reads back the fields it laid out (R42 to R45). -/
theorem decode_encode (i : Instr) : decode (encode i) = .ok i := by
  cases i with
  | emit s =>
    simp [encode, decode, decodeE, fieldOp_layout, fieldZ_layout, fieldCb_layout, fieldArgHigh_layout,
      fieldSample_layout]
  | schedAbs t cb =>
    simp [encode, decode, fieldOp_layout, fieldZ_layout, fieldCb_layout, fieldArg_layout]
  | schedRel d cb =>
    simp [encode, decode, fieldOp_layout, fieldZ_layout, fieldCb_layout, fieldArg_layout]
  | ret =>
    simp [encode, decode, decodeZ, fieldOp_layout, fieldZ_layout, fieldCb_layout, fieldArg_layout]

/-- A run of the machine is its first step, and the rest from where that step ended. -/
theorem core_run_succ (n : Nat) (s : State) :
    Host.Core.run Sys2Proof.core (n + 1) s = andThen (step s) (Host.Core.run Sys2Proof.core n) := by
  have hstep : Sys2Proof.core.step s = step s := rfl
  refine (Host.Core.run.eq_2 Sys2Proof.core s n).trans ?_
  rw [hstep]
  cases step s <;> rfl

/-- A step on a command encoded at the port is that command on the state with its word taken (R41). -/
theorem step_encoded (i : Instr) (words : List CmdWord) (s : State) :
    step { s with port := encode i :: words } = exec i { s with port := words } :=
  step_of_decode rfl (decode_encode i)

/-! ### The form of the slot memory (R27) -/

section MemoryForm

variable {accW clkW curW cbW : Nat}

theorem memory_wf_enqueue {t : BitVec clkW} {cb : BitVec cbW} {b b' : Block accW clkW curW cbW}
    {events : List (Event cbW)} (h : Memory.wf b.slots) (he : enqueue t cb b = .ok (b', events)) :
    Memory.wf b'.slots := by
  obtain ⟨-, rfl | ⟨-, rfl⟩⟩ := enqueue_ok he
  · exact h
  · exact memWrite_wf h _ _

/-- Every command that completes keeps the memory's form: only an accepted request writes a slot. -/
theorem memory_wf_runCommand {c : Command clkW cbW} {b b' : Block accW clkW curW cbW}
    {events : List (Event cbW)} (h : Memory.wf b.slots) (hc : runCommand c b = .ok (b', events)) :
    Memory.wf b'.slots := by
  cases c with
  | emit x =>
    obtain ⟨-, ⟨rfl, -, -⟩ | ⟨_, -, -, rfl, -⟩⟩ := emitBlock_ok hc
    · exact h
    · exact h
  | schedAbs t cb => exact memory_wf_enqueue h hc
  | schedRel d cb => exact memory_wf_enqueue h hc
  | ret =>
    obtain ⟨-, rfl, -⟩ := retBlock_ok hc
    exact h

end MemoryForm

/-! ### What `EMIT` reads of the slots (R29, R30) -/

section HeadSlot

variable {accW clkW curW cbW : Nat} {b : Block accW clkW curW cbW}

theorem pollHead_of_unwritten (hhead : headView b = .unwritten) :
    pollHead b = .error .unwrittenSlot := by
  simp [pollHead, hhead]

/-- In the host context an unwritten head slot refuses `EMIT` (R30, R100). -/
theorem emitBlock_of_unwritten (x : Sample) (hp : b.phase = .idle)
    (hhead : headView b = .unwritten) : emitBlock x b = .error .unwrittenSlot := by
  rw [← emitWord_headView x b] at hhead
  rw [emitBlock_of_idle hp, continueWith, pollHead_of_unwritten hhead]

/-- Where every pending slot is written, the head of a queue that is not empty is (R30). -/
theorem exists_memRead_head (hwritten : pendingWritten b) (hne : ¬ qEmpty b) :
    ∃ a, memRead b.slots (slotIndex b.qout) = some a := by
  rw [← pendingIndex_zero]
  exact Option.isSome_iff_exists.1 (hwritten 0 (Nat.pos_of_ne_zero (mt (qEmpty_iff b).2 hne)))

/-- The head peek reads the head slot only. -/
theorem headView_with_slots {m : Memory clkW cbW}
    (h : memRead m (slotIndex b.qout) = memRead b.slots (slotIndex b.qout)) :
    headView { b with slots := m } = headView b := by
  simp only [headView, h]

/-- The poll of the head depends on the slots by what the peek saw, and carries them along. -/
theorem pollHead_with_slots {m : Memory clkW cbW}
    (h : headView { b with slots := m } = headView b) :
    pollHead { b with slots := m } = (pollHead b).map fun r => ({ r.1 with slots := m }, r.2) := by
  cases hhead : headView b with
  | empty => rw [pollHead_of_empty hhead, pollHead_of_empty (h.trans hhead)]; rfl
  | unwritten => rw [pollHead_of_unwritten hhead, pollHead_of_unwritten (h.trans hhead)]; rfl
  | pending a =>
    by_cases hdue : due a.target b.sclk
    · rw [pollHead_of_due hhead hdue, pollHead_of_due (h.trans hhead) hdue]; rfl
    · rw [pollHead_of_not_due hhead hdue, pollHead_of_not_due (h.trans hhead) hdue]; rfl

end HeadSlot

/-! ### The statements -/

/-- Settles O9: an idle step changes nothing, and a completed command takes its word and appends its events. -/
theorem stepOnlyExtendsTrace : Obligations.StepOnlyExtendsTrace := by
  intro s t hstep
  rcases step_next hstep with ⟨hport, rfl⟩ | ⟨w, rest, i, hport, -, hexec⟩
  · exact ⟨List.prefix_rfl, by simp [hport]⟩
  · obtain ⟨b, events, -, rfl⟩ := exec_next_iff.1 hexec
    exact ⟨List.prefix_append _ _, by simp [hport]⟩

/-- Settles O10, by induction on the commands: each step takes its command's own word, and a command's effect does not
depend on what waits behind it. -/
theorem portRunsCommandsInOrder : Obligations.PortRunsCommandsInOrder := by
  intro is behind s
  induction is generalizing s with
  | nil => rfl
  | cons i rest ih =>
    rw [List.map_cons, List.cons_append, List.length_cons, core_run_succ, step_encoded,
      runCommands_cons, exec_eq_commit, exec_eq_commit]
    rcases runCommand (commandOf i) s.block with r | ⟨b, events⟩
    · rfl
    · exact ih { s with block := b, trace := s.trace ++ events }

/-- Settles O31: a step is an idle one or a completed command, and every completed command keeps the form. -/
theorem stepKeepsMemoryForm : Obligations.StepKeepsMemoryForm := by
  intro s t hwf hstep
  rcases step_next_runCommand hstep with rfl | ⟨_, _, _, _, -, -, hrun, -⟩
  · exact hwf
  · exact memory_wf_runCommand hwf hrun

/-- Settles O34: the invariant of reachable states holds the pending slots written, the head among them, so that a
refused step has another reason; elsewhere the peek itself refuses. -/
theorem noUnwrittenSlotRead : Obligations.NoUnwrittenSlotRead := by
  refine ⟨fun s hreach => ?_, fun x s hp hne hread => ?_⟩
  · obtain ⟨-, -, -, hwritten, -⟩ := blockInv_of_reachable hreach
    refine ⟨exists_memRead_head hwritten, fun hrefused => ?_⟩
    obtain ⟨_, _, -, ⟨hr, -⟩ | ⟨_, -, hrun⟩⟩ := step_refused hrefused
    · cases hr
    · rcases runCommand_error hwritten hrun with ⟨hr, -⟩ | ⟨hr, -⟩ <;> cases hr
  · rw [exec_eq_commit]
    exact commit_refused_iff.2 (emitBlock_of_unwritten x hp (headView_unwritten_iff.2 ⟨hne, hread⟩))

/-- Settles O42: the word and the clock do not depend on the slots, and the poll depends on them by the head alone. -/
theorem onlyHeadInspected : Obligations.OnlyHeadInspected := by
  intro x b m hhead
  obtain hp | hp : b.phase = .firing ∨ b.phase = .idle := by cases b.phase <;> simp
  · rw [emitBlock_of_firing (b := { b with slots := m }) hp, emitBlock_of_firing hp]
    rfl
  · have hpoll : pollHead (emitWord x { b with slots := m }).1 =
        (pollHead (emitWord x b).1).map fun r => ({ r.1 with slots := m }, r.2) :=
      pollHead_with_slots (b := (emitWord x b).1) (headView_with_slots hhead)
    rw [emitBlock_of_idle (b := { b with slots := m }) hp, emitBlock_of_idle hp, continueWith,
      continueWith, hpoll]
    cases pollHead (emitWord x b).1 <;> rfl

end Sys2Proof.Proofs
end

section
/-! PROOFS of the statements of 30_encoding.md. The rules they need, each said once: a word is determined by its fields, a
word spells a row exactly when its fixed fields are the row's, a word decodes to a command exactly when it is that command's
encoding, and an assembler line's operands survive their fields. -/

namespace Sys2Proof.Proofs

open Sys2Proof.Machine Sys2Proof.Laws

/-! ### A word and its fields (R42, R43) -/

section Fields

theorem append_eq_append_iff {m n : Nat} {x x' : BitVec m} {y y' : BitVec n} :
    x ++ y = x' ++ y' ↔ x = x' ∧ y = y' := by
  refine ⟨fun h => ⟨?_, ?_⟩, fun ⟨hx, hy⟩ => hx ▸ hy ▸ rfl⟩
  · rw [← BitVec.extractLsb'_append_eq_left (a := x) (b := y), h, BitVec.extractLsb'_append_eq_left]
  · rw [← BitVec.extractLsb'_append_eq_right (a := x) (b := y), h, BitVec.extractLsb'_append_eq_right]

variable {w : CmdWord} {op op' : BitVec 4} {z z' : BitVec 12} {cb cb' : Tag} {arg arg' : Count}

/-- A word is a layout exactly when its four fields are the ones laid out (R42). -/
theorem eq_layout_iff : w = layout op z cb arg ↔
    fieldOp w = op ∧ fieldZ w = z ∧ fieldCb w = cb ∧ fieldArg w = arg := by
  constructor
  · rintro rfl
    exact ⟨fieldOp_layout .., fieldZ_layout .., fieldCb_layout .., fieldArg_layout ..⟩
  · rintro ⟨rfl, rfl, rfl, rfl⟩
    exact (layout_fields w).symm

/-- A masked word is compared field by field. -/
theorem and_layout_eq_layout_iff : w &&& layout op z cb arg = layout op' z' cb' arg' ↔
    fieldOp w &&& op = op' ∧ fieldZ w &&& z = z' ∧ fieldCb w &&& cb = cb' ∧ fieldArg w &&& arg = arg' := by
  have hand : w &&& layout op z cb arg =
      layout (fieldOp w &&& op) (fieldZ w &&& z) (fieldCb w &&& cb) (fieldArg w &&& arg) := by
    rw [← layout_and, layout_fields]
  rw [hand, eq_layout_iff, fieldOp_layout, fieldZ_layout, fieldCb_layout, fieldArg_layout]

/-- The operand field is two halves side by side exactly when they are its halves (R43). -/
theorem fieldArg_eq_append_iff {hi lo : BitVec 16} :
    fieldArg w = hi ++ lo ↔ fieldArgHigh w = hi ∧ fieldSample w = lo := by
  rw [← fieldArg_halves]
  exact append_eq_append_iff

/-- Format E's mask on the operand field looks at its high half alone (R43). -/
theorem fieldArg_and_high_eq_zero_iff : fieldArg w &&& (0xFFFF#16 ++ 0#16) = 0 ↔ fieldArgHigh w = 0 := by
  have hand : fieldArg w &&& (0xFFFF#16 ++ 0#16) = fieldArgHigh w ++ 0#16 := by
    rw [← fieldArg_halves]
    exact BitVec.and_append.trans (congrArg₂ _ BitVec.and_allOnes BitVec.and_zero)
  rw [hand]
  exact append_eq_append_iff (x' := 0#16) (y' := 0#16) |>.trans (and_iff_left rfl)

/-- The bits below the opcode are the other three fields (R45). -/
theorem extractLsb'_60_eq_zero_iff :
    w.extractLsb' 0 60 = 0 ↔ fieldZ w = 0 ∧ fieldCb w = 0 ∧ fieldArg w = 0 := by
  have hzcb : fieldZ w ++ fieldCb w = w.extractLsb' 32 28 :=
    BitVec.extractLsb'_append_extractLsb'_eq_extractLsb' (start₁ := 32) (len₁ := 16) rfl
  have hall : w.extractLsb' 32 28 ++ fieldArg w = w.extractLsb' 0 60 :=
    BitVec.extractLsb'_append_extractLsb'_eq_extractLsb' (start₁ := 0) (len₁ := 32) rfl
  have hzero : w.extractLsb' 32 28 = 0 ↔ fieldZ w = 0 ∧ fieldCb w = 0 := by
    rw [← hzcb]
    exact append_eq_append_iff (x' := 0#12) (y' := 0#16)
  rw [← and_assoc, ← hzero, ← hall]
  exact append_eq_append_iff (x' := 0#28) (y' := 0#32)

end Fields

/-! ### The rows of the opcode table, by fields (R43 to R45) -/

section Rows

variable {w : CmdWord}

/-- Every row fixes the opcode and `z`; its mask on the other two fields says what else it fixes (R45). -/
theorem spells_iff {r : OpcodeRow} {op : BitVec 4} {cbMask : Tag} {argMask : Count}
    (hmask : r.maskBits = layout (.allOnes 4) (.allOnes 12) cbMask argMask)
    (hmatch : r.matchBits = layout op 0 0 0) :
    spells r w ↔
      fieldOp w = op ∧ fieldZ w = 0 ∧ fieldCb w &&& cbMask = 0 ∧ fieldArg w &&& argMask = 0 := by
  rw [spells, hmask, hmatch, and_layout_eq_layout_iff, BitVec.and_allOnes, BitVec.and_allOnes]

theorem spells_rowEmit_iff : spells rowEmit w ↔
    fieldOp w = 1#4 ∧ fieldZ w = 0 ∧ fieldCb w = 0 ∧ fieldArgHigh w = 0 := by
  rw [spells_iff (cbMask := .allOnes 16) rowEmit_mask rowEmit_match, BitVec.and_allOnes,
    fieldArg_and_high_eq_zero_iff]

theorem spells_rowSchedAbs_iff : spells rowSchedAbs w ↔ fieldOp w = 2#4 ∧ fieldZ w = 0 := by
  rw [spells_iff rowSchedAbs_mask rowSchedAbs_match]
  simp

theorem spells_rowSchedRel_iff : spells rowSchedRel w ↔ fieldOp w = 3#4 ∧ fieldZ w = 0 := by
  rw [spells_iff rowSchedRel_mask rowSchedRel_match]
  simp

theorem spells_rowRet_iff : spells rowRet w ↔
    fieldOp w = 4#4 ∧ fieldZ w = 0 ∧ fieldCb w = 0 ∧ fieldArg w = 0 := by
  rw [spells_iff (cbMask := .allOnes 16) (argMask := .allOnes 32) rowRet_mask rowRet_match,
    BitVec.and_allOnes, BitVec.and_allOnes]

end Rows

/-! ### The word of a command (R43 to R45) -/

section Encodings

variable {w : CmdWord}

theorem eq_encode_emit_iff {x : Sample} : w = encode (.emit x) ↔
    fieldOp w = 1#4 ∧ fieldZ w = 0 ∧ fieldCb w = 0 ∧ fieldArgHigh w = 0 ∧ fieldSample w = x := by
  rw [encode, eq_layout_iff, fieldArg_eq_append_iff]
  rfl

theorem eq_encode_schedAbs_iff {t : Count} {cb : Tag} : w = encode (.schedAbs t cb) ↔
    fieldOp w = 2#4 ∧ fieldZ w = 0 ∧ fieldCb w = cb ∧ fieldArg w = t :=
  eq_layout_iff

theorem eq_encode_schedRel_iff {d : Count} {cb : Tag} : w = encode (.schedRel d cb) ↔
    fieldOp w = 3#4 ∧ fieldZ w = 0 ∧ fieldCb w = cb ∧ fieldArg w = d :=
  eq_layout_iff

theorem eq_encode_ret_iff : w = encode .ret ↔
    fieldOp w = 4#4 ∧ fieldZ w = 0 ∧ fieldCb w = 0 ∧ fieldArg w = 0 :=
  eq_layout_iff

/-- A word of format E is its row and its sample. -/
theorem eq_encode_emit_iff_spells {x : Sample} :
    w = encode (.emit x) ↔ spells rowEmit w ∧ x = fieldSample w := by
  rw [eq_encode_emit_iff, spells_rowEmit_iff, eq_comm (a := x)]
  simp only [and_assoc]

/-- A word of format S is its row, its tag and its count. -/
theorem eq_encode_schedAbs_iff_spells {t : Count} {cb : Tag} :
    w = encode (.schedAbs t cb) ↔ spells rowSchedAbs w ∧ cb = fieldCb w ∧ t = fieldArg w := by
  rw [eq_encode_schedAbs_iff, spells_rowSchedAbs_iff, and_assoc, eq_comm (a := cb), eq_comm (a := t)]

theorem eq_encode_schedRel_iff_spells {d : Count} {cb : Tag} :
    w = encode (.schedRel d cb) ↔ spells rowSchedRel w ∧ cb = fieldCb w ∧ d = fieldArg w := by
  rw [eq_encode_schedRel_iff, spells_rowSchedRel_iff, and_assoc, eq_comm (a := cb), eq_comm (a := d)]

/-- The one word of format Z. -/
theorem eq_encode_ret_iff_spells : w = encode .ret ↔ spells rowRet w := by
  rw [eq_encode_ret_iff, spells_rowRet_iff]

/-- Every command's word spells its own row and no other (R45, R52). -/
theorem rowMatch : ∀ i, RowMatch.Statement i
  | .emit s => RowMatch.emit s
  | .schedAbs t cb => RowMatch.schedAbs t cb
  | .schedRel d cb => RowMatch.schedRel d cb
  | .ret => RowMatch.ret

theorem rowOf_mem (i : Instr) : rowOf i ∈ opcodeRows := by
  cases i <;> simp [rowOf, opcodeRows]

/-- A word encodes some command exactly when it spells a row. -/
theorem exists_eq_encode_iff : (∃ i, w = encode i) ↔ ∃ r ∈ opcodeRows, spells r w := by
  constructor
  · rintro ⟨i, rfl⟩
    exact ⟨rowOf i, rowOf_mem i, (rowMatch i).1⟩
  · rintro ⟨r, hr, hw⟩
    simp only [opcodeRows, List.mem_cons, List.not_mem_nil, or_false] at hr
    rcases hr with rfl | rfl | rfl | rfl
    · exact ⟨_, eq_encode_emit_iff_spells.2 ⟨hw, rfl⟩⟩
    · exact ⟨_, eq_encode_schedAbs_iff_spells.2 ⟨hw, rfl, rfl⟩⟩
    · exact ⟨_, eq_encode_schedRel_iff_spells.2 ⟨hw, rfl, rfl⟩⟩
    · exact ⟨_, eq_encode_ret_iff_spells.2 hw⟩

end Encodings

/-! ### The decoder (R46) -/

section Decoder

variable {w : CmdWord} {i : Instr}

theorem decodeE_ok (h : decodeE w = .ok i) :
    fieldCb w = 0 ∧ fieldArgHigh w = 0 ∧ i = .emit (fieldSample w) := by
  unfold decodeE at h
  split_ifs at h with hcb harg
  cases h
  exact ⟨not_not.1 hcb, not_not.1 harg, rfl⟩

theorem decodeZ_ok (h : decodeZ w = .ok i) : fieldCb w = 0 ∧ fieldArg w = 0 ∧ i = .ret := by
  unfold decodeZ at h
  split_ifs at h with hz
  cases h
  obtain ⟨hcb, harg⟩ := not_or.1 hz
  exact ⟨not_not.1 hcb, not_not.1 harg, rfl⟩

/-- A word that decodes is the encoding of its command: each format's checks leave no other word. -/
theorem eq_encode_of_decode (h : decode w = .ok i) : w = encode i := by
  unfold decode at h
  split_ifs at h with hop0 hop hz hE hA hR
  · obtain ⟨hcb, harg, rfl⟩ := decodeE_ok h
    exact eq_encode_emit_iff.2 ⟨hE, not_not.1 hz, hcb, harg, rfl⟩
  · cases h
    exact eq_encode_schedAbs_iff.2 ⟨hA, not_not.1 hz, rfl, rfl⟩
  · cases h
    exact eq_encode_schedRel_iff.2 ⟨hR, not_not.1 hz, rfl, rfl⟩
  · obtain ⟨hcb, harg, rfl⟩ := decodeZ_ok h
    have hZ : fieldOp w = 4#4 := by tauto
    exact eq_encode_ret_iff.2 ⟨hZ, not_not.1 hz, hcb, harg⟩

/-- The decoder and the encoder are inverse to each other. -/
theorem decode_eq_ok_iff : decode w = .ok i ↔ w = encode i :=
  ⟨eq_encode_of_decode, fun h => h ▸ decode_encode i⟩

/-- A word is invalid exactly when it spells no row (R46). -/
theorem decode_error_iff : (∃ e, decode w = .error e) ↔ ∀ r ∈ opcodeRows, ¬ spells r w := by
  have hnone : (∃ e, decode w = .error e) ↔ ¬ ∃ i, decode w = .ok i := by
    cases decode w <;> simp
  simp only [hnone, decode_eq_ok_iff, exists_eq_encode_iff, not_exists, not_and]

theorem opcode_cases :
    ∀ op : BitVec 4, op = 0 ∨ op = 1 ∨ op = 2 ∨ op = 3 ∨ op = 4 ∨ 5 ≤ op.toNat := by
  decide

/-- The words that spell no row, opcode by opcode (R46). -/
theorem not_spells_iff : (∀ r ∈ opcodeRows, ¬ spells r w) ↔
    fieldOp w = 0 ∨ 5 ≤ (fieldOp w).toNat ∨ fieldZ w ≠ 0 ∨
      (fieldOp w = 1 ∧ (fieldCb w ≠ 0 ∨ fieldArgHigh w ≠ 0)) ∨
      (fieldOp w = 4 ∧ w.extractLsb' 0 60 ≠ 0) := by
  simp only [opcodeRows, List.forall_mem_cons, List.not_mem_nil, false_implies, implies_true, and_true,
    spells_rowEmit_iff, spells_rowSchedAbs_iff, spells_rowSchedRel_iff, spells_rowRet_iff, ne_eq,
    extractLsb'_60_eq_zero_iff]
  obtain hop | hop | hop | hop | hop | hop := opcode_cases (fieldOp w)
  · simp [hop]
  · simp [hop]; tauto
  · simp [hop]
  · simp [hop]
  · simp [hop]; tauto
  · have hne : ∀ op : BitVec 4, op.toNat < 5 → fieldOp w ≠ op := by
      rintro op hlt rfl
      omega
    simp [hop, hne]

end Decoder

/-! ### Operands as integers (R43, R44, R50, R70) -/

section Operands

/-- The sample's value is its field as a signed 16-bit integer (R43). -/
theorem sampleValue_eq (x : Sample) :
    sampleValue x = if x.toNat < 32768 then (x.toNat : Int) else (x.toNat : Int) - 65536 := by
  rw [sampleValue, BitVec.toInt_eq_toNat_cond]
  exact if_congr (by omega) rfl rfl

/-- A field is determined by its unsigned value. -/
theorem ofInt_toNat {n : Nat} (x : BitVec n) : BitVec.ofInt n x.toNat = x := by
  rw [BitVec.ofInt_natCast, BitVec.ofNat_toNat, BitVec.setWidth_eq]

/-- A negative delta `-m`, wrapped, takes `m` from the clock modulo `2^32` (R44, R70). -/
theorem relTarget_wrap_neg (k : Count) (m : Nat) :
    relTarget k (wrap 32 (-(m : Int))) = wrap 32 ((k.toNat : Int) - m) := by
  rw [relTarget, wrap, wrap, sub_eq_add_neg, BitVec.ofInt_add, ofInt_toNat]

theorem inRange_iff {lo hi x : Int} : inRange lo hi x = true ↔ lo ≤ x ∧ x ≤ hi := by
  simp [inRange]

/-- An unsigned operand within its field's range survives the field. -/
theorem toNat_ofInt_of_inRange {n : Nat} {hi x : Int} (hhi : hi < 2 ^ n) (h : inRange 0 hi x = true) :
    ((BitVec.ofInt n x).toNat : Int) = x := by
  obtain ⟨hlow, hhigh⟩ := inRange_iff.1 h
  rw [BitVec.toNat_ofInt, Int.emod_eq_of_lt hlow (by push_cast; omega), Int.toNat_of_nonneg hlow]

/-- A signed sample within its range survives the field. -/
theorem toInt_ofInt_of_inRange {x : Int} (h : inRange Config.sMin Config.sMax x = true) :
    (BitVec.ofInt 16 x).toInt = x := by
  obtain ⟨hlow, hhigh⟩ := inRange_iff.1 h
  exact asSample_toInt hlow hhigh

/-- The fields of a count and a tag lie in R50's ranges. -/
theorem inRange_count (t : Count) : inRange 0 4294967295 t.toNat = true :=
  inRange_iff.2 ⟨by omega, by omega⟩

theorem inRange_tag (cb : Tag) : inRange 0 65535 cb.toNat = true :=
  inRange_iff.2 ⟨by omega, by omega⟩

theorem inRange_sample (s : Sample) : inRange Config.sMin Config.sMax s.toInt = true :=
  inRange_iff.2 ⟨BitVec.le_toInt s, Int.le_of_lt_add_one BitVec.toInt_lt⟩

/-- Every command's line is within the operand ranges (R50). -/
theorem asmWellFormed_disassemble (i : Instr) : asmWellFormed (disassemble i) = true := by
  cases i with
  | emit s => exact inRange_sample s
  | schedAbs t cb => exact Bool.and_eq_true_iff.2 ⟨inRange_count t, inRange_tag cb⟩
  | schedRel d cb => exact Bool.and_eq_true_iff.2 ⟨inRange_count d, inRange_tag cb⟩
  | ret => rfl

theorem assemble_of_wellFormed {a : Asm} (h : asmWellFormed a = true) :
    ∃ i, assemble a = some i ∧ disassemble i = a := by
  cases a with
  | emit s => exact ⟨_, if_pos h, congrArg Asm.emit (toInt_ofInt_of_inRange h)⟩
  | schedAbs t cb =>
    obtain ⟨ht, hcb⟩ := Bool.and_eq_true_iff.1 h
    exact ⟨_, if_pos h, congrArg₂ Asm.schedAbs (toNat_ofInt_of_inRange (by decide) ht)
      (toNat_ofInt_of_inRange (by decide) hcb)⟩
  | schedRel d cb =>
    obtain ⟨hd, hcb⟩ := Bool.and_eq_true_iff.1 h
    exact ⟨_, if_pos h, congrArg₂ Asm.schedRel (toNat_ofInt_of_inRange (by decide) hd)
      (toNat_ofInt_of_inRange (by decide) hcb)⟩
  | ret => exact ⟨_, if_pos h, rfl⟩

theorem assemble_of_illFormed {a : Asm} (h : asmWellFormed a = false) : assemble a = none := by
  simp [assemble, h]

/-- A command's own line assembles back to it: a field's value, read back into the field, is the field. -/
theorem assemble_disassemble (i : Instr) : assemble (disassemble i) = some i := by
  have hwf := asmWellFormed_disassemble i
  cases i with
  | emit s => exact (if_pos hwf).trans (congrArg (some <| Instr.emit ·) BitVec.ofInt_toInt)
  | schedAbs t cb =>
    exact (if_pos hwf).trans (congrArg₂ (some <| Instr.schedAbs · ·) (ofInt_toNat t) (ofInt_toNat cb))
  | schedRel d cb =>
    exact (if_pos hwf).trans (congrArg₂ (some <| Instr.schedRel · ·) (ofInt_toNat d) (ofInt_toNat cb))
  | ret => exact if_pos hwf

end Operands

/-! ### The statements -/


/-- Settles O1: each format reads back the fields it laid out. -/
theorem decodeOfEncode : Obligations.DecodeOfEncode := decode_encode

/-- Settles O2: a word decodes exactly when it is a command's encoding, which is exactly when it spells a row. -/
theorem reservedWordsRefused : Obligations.ReservedWordsRefused := by
  refine fun w => ⟨fun i hdecode => ?_, decode_error_iff, decode_error_iff.trans not_spells_iff, ?_⟩
  · obtain rfl := decode_eq_ok_iff.1 hdecode
    obtain ⟨hspells, honly⟩ := rowMatch i
    exact ⟨hspells, honly, rfl⟩
  · rintro s rest hport ⟨e, herror⟩
    exact step_of_invalid hport herror

/-- Settles O3: a word decodes to `EMIT x` exactly when it is that command's encoding, read by fields or by its row. -/
theorem formatEDecodes : Obligations.FormatEDecodes := fun _ x =>
  ⟨decode_eq_ok_iff.trans eq_encode_emit_iff, decode_eq_ok_iff.trans eq_encode_emit_iff_spells,
    sampleValue_eq x⟩

/-- Settles O4: as for format E, and the sum with a wrapped negative delta is the wrapped difference. -/
theorem formatSDecodes : Obligations.FormatSDecodes := fun _ _ _ =>
  ⟨decode_eq_ok_iff.trans eq_encode_schedAbs_iff, decode_eq_ok_iff.trans eq_encode_schedRel_iff,
    decode_eq_ok_iff.trans eq_encode_schedAbs_iff_spells,
    decode_eq_ok_iff.trans eq_encode_schedRel_iff_spells, relTarget_wrap_neg⟩

/-- Settles O5: as for format E; a word of format Z has no operand, so the row is the word. -/
theorem formatZDecodes : Obligations.FormatZDecodes := fun _ =>
  ⟨decode_eq_ok_iff.trans eq_encode_ret_iff, decode_eq_ok_iff.trans eq_encode_ret_iff_spells⟩

/-- Settles O6: the decoder evaluated on each of the sixteen words. -/
theorem workedEncodings : Obligations.WorkedEncodings := by
  unfold Obligations.WorkedEncodings
  decide

/-- Settles O7: within the ranges the operands survive their fields, and every field's value is within its range. -/
theorem assemblerRoundTrip : Obligations.AssemblerRoundTrip :=
  ⟨fun _ => assemble_of_wellFormed, fun _ => assemble_of_illFormed, assemble_disassemble⟩

end Sys2Proof.Proofs
end

section
/-! PROOFS of the statements of 40_pdm_encoder.md. The rules they need, each said once: the bits of a word as the bits
of its steps, the ones of a word as the accumulator's account, the extremes, and the way back into the range. -/

namespace Sys2Proof.Proofs

open Sys2Proof.Machine Sys2Proof.Laws

section EncoderRules

variable {accW : Nat}

/-! ### The steps of a word (R54) -/

/-- The accumulator one bit-step leaves. -/
abbrev nextAcc (s : Sample) (acc : BitVec accW) : BitVec accW := (bitStep acc s).2

/-- The bit of step `i`, taken on the accumulator that `i` steps leave. -/
abbrev stepBit (s : Sample) (acc : BitVec accW) (i : Nat) : Bool :=
  (bitStep ((nextAcc s)^[i] acc) s).1

theorem encodeSteps_acc_eq_iterate (s : Sample) (n : Nat) (w : BitWord) (acc : BitVec accW) :
    (encodeSteps s n w acc).2 = (nextAcc s)^[n] acc := by
  induction n generalizing w acc with
  | zero => rfl
  | succ n ih => exact ih _ _

theorem encodeSample_acc_eq_iterate (acc : BitVec accW) (s : Sample) :
    (encodeSample acc s).2 = (nextAcc s)^[32] acc :=
  encodeSteps_acc_eq_iterate s 32 0#32 acc

theorem shiftIn_getLsbD_zero (w : BitWord) (bit : Bool) : (shiftIn w bit).getLsbD 0 = bit := by
  simp [shiftIn]

theorem shiftIn_getLsbD_succ (w : BitWord) (bit : Bool) {j : Nat} (hj : j + 1 < 32) :
    (shiftIn w bit).getLsbD (j + 1) = w.getLsbD j := by
  simp [shiftIn, hj, BitVec.getLsbD_eq_getElem (show j < 32 by omega)]

/-- `n` bit-steps move what the word held up by `n` places. -/
theorem encodeSteps_getLsbD_shifted (s : Sample) (n : Nat) (w : BitWord) (acc : BitVec accW) {j : Nat}
    (hj : j + n < 32) : (encodeSteps s n w acc).1.getLsbD (j + n) = w.getLsbD j := by
  induction n generalizing w acc j with
  | zero => rfl
  | succ n ih =>
    rw [encodeSteps_succ, show j + (n + 1) = j + 1 + n by omega, ih _ _ (by omega),
      shiftIn_getLsbD_succ _ _ (by omega)]

/-- Of `n` bit-steps, the bit of step `i` is moved up by the `n - 1 - i` steps after it. -/
theorem encodeSteps_getLsbD (s : Sample) (n : Nat) (w : BitWord) (acc : BitVec accW) {i j : Nat}
    (hij : i + j + 1 = n) (hn : n ≤ 32) :
    (encodeSteps s n w acc).1.getLsbD j = stepBit s acc i := by
  induction i generalizing n w acc with
  | zero =>
    obtain rfl : n = j + 1 := by omega
    calc (encodeSteps s (j + 1) w acc).1.getLsbD j
        = (encodeSteps s j (shiftIn w (bitStep acc s).1) (nextAcc s acc)).1.getLsbD (0 + j) := by
          rw [encodeSteps_succ, zero_add]
      _ = (shiftIn w (bitStep acc s).1).getLsbD 0 := encodeSteps_getLsbD_shifted _ _ _ _ (by omega)
      _ = stepBit s acc 0 := shiftIn_getLsbD_zero _ _
  | succ i ih =>
    obtain rfl : n = i + j + 1 + 1 := by omega
    exact ih _ _ _ rfl (by omega)

theorem encodeSample_getLsbD (acc : BitVec accW) (s : Sample) {i : Nat} (hi : i < 32) :
    (encodeSample acc s).1.getLsbD (31 - i) = stepBit s acc i :=
  encodeSteps_getLsbD s 32 0#32 acc (by omega) le_rfl

/-! ### The extremes (R56) -/

/-- At positive full scale a 1 bit adds nothing. -/
theorem bitStep_of_sMax {acc : BitVec accW} {s : Sample} (hs : s.toInt = 32767)
    (h : acc.toInt ≤ 32767) : bitStep acc s = (true, acc) := by
  rw [bitStep_one (h.trans_eq hs.symm), hs, sub_self, add_zero, BitVec.ofInt_toInt]

/-- At negative full scale a 0 bit adds nothing. -/
theorem bitStep_of_sMin {acc : BitVec accW} {s : Sample} (hs : s.toInt = -32768)
    (h : -32768 < acc.toInt) : bitStep acc s = (false, acc) := by
  rw [bitStep_zero (hs.trans_lt h), hs, sub_self, add_zero, BitVec.ofInt_toInt]

/-- Where a bit-step leaves the accumulator alone, every later one repeats it. -/
theorem encodeSteps_of_bitStep_fixed {acc : BitVec accW} {s : Sample} {bit : Bool}
    (h : bitStep acc s = (bit, acc)) (n : Nat) (w : BitWord) :
    encodeSteps s n w acc = ((shiftIn · bit)^[n] w, acc) := by
  induction n generalizing w with
  | zero => rfl
  | succ n ih => rw [encodeSteps_succ, h, ih, Function.iterate_succ_apply]

/-! ### The account of the ones (R57, R59) -/

theorem accInRange_iterate (hw : 16 ≤ accW) (s : Sample) (n : Nat) {acc : BitVec accW}
    (h : accInRange acc) : accInRange ((nextAcc s)^[n] acc) :=
  encodeSteps_acc_eq_iterate s n 0#32 acc ▸ accInRange_encodeSteps hw s n 0#32 h

theorem accInRange_encodeSample (hw : 16 ≤ accW) {acc : BitVec accW} (h : accInRange acc)
    (s : Sample) : accInRange (encodeSample acc s).2 :=
  accInRange_encodeSteps hw s 32 0#32 h

/-- In the range every step takes `s + 32768` from the accumulator, and a 1 bit adds 65535. -/
theorem nextAcc_toInt (hw : 16 ≤ accW) {acc : BitVec accW} (h : accInRange acc) (s : Sample) :
    (nextAcc s acc).toInt =
      acc.toInt + (if (bitStep acc s).1 then 65535 else 0) - (s.toInt + 32768) := by
  obtain ⟨hbit, hacc⟩ := bitStep_eq_viewBitStep hw h s
  rw [hbit, nextAcc, hacc, viewBitStep]
  split
  · simp; omega
  · simp; omega

theorem iterate_nextAcc_toInt (hw : 16 ≤ accW) {acc : BitVec accW} (h : accInRange acc) (s : Sample)
    (n : Nat) : ((nextAcc s)^[n] acc).toInt =
      acc.toInt + (List.range n).countP (stepBit s acc) * 65535 - n * (s.toInt + 32768) := by
  induction n with
  | zero => simp
  | succ n ih =>
    rw [Function.iterate_succ_apply', nextAcc_toInt hw (accInRange_iterate hw s n h), ih,
      List.range_succ, List.countP_append, List.countP_singleton]
    split <;> push_cast <;> ring

/-- The ones of a word are the 1 bits of its steps. -/
theorem onesIn_encodeSample (acc : BitVec accW) (s : Sample) :
    onesIn (encodeSample acc s).1 = (List.range 32).countP (stepBit s acc) := by
  have hreverse : (List.range 32).reverse = (List.range 32).map (31 - ·) := by decide
  rw [onesIn, ← List.countP_reverse, hreverse, List.countP_map]
  refine List.countP_congr fun i hi => ?_
  rw [Function.comp_apply, encodeSample_getLsbD acc s (List.mem_range.1 hi)]

theorem encodeSample_account (hw : 16 ≤ accW) {acc : BitVec accW} (h : accInRange acc) (s : Sample) :
    (encodeSample acc s).2.toInt =
      acc.toInt + onesIn (encodeSample acc s).1 * 65535 - 32 * (s.toInt + 32768) := by
  rw [encodeSample_acc_eq_iterate, iterate_nextAcc_toInt hw h, onesIn_encodeSample, Nat.cast_ofNat]

theorem accInRange_encodeRun (hw : 16 ≤ accW) {acc : BitVec accW} (h : accInRange acc)
    (xs : List Sample) : accInRange (encodeRun acc xs).2 := by
  induction xs generalizing acc with
  | nil => exact h
  | cons x xs ih => exact ih (accInRange_encodeSample hw h x)

/-- The account over `n` words of one sample: each word's accumulator is the next one's (R55). -/
theorem encodeRun_replicate_account (hw : 16 ≤ accW) {acc : BitVec accW} (h : accInRange acc)
    (s : Sample) (n : Nat) :
    (encodeRun acc (List.replicate n s)).2.toInt =
      acc.toInt + ((encodeRun acc (List.replicate n s)).1.map onesIn).sum * 65535 -
        32 * n * (s.toInt + 32768) := by
  induction n generalizing acc with
  | zero => simp [encodeRun]
  | succ n ih =>
    rw [List.replicate_succ, encodeRun, ih (accInRange_encodeSample hw h s),
      encodeSample_account hw h, List.map_cons, List.sum_cons]
    push_cast
    ring

/-- The account divided by the bits: the density of ones is the sample's place in the range, up to an accumulator's change
over full scale, which is less than one bit. -/
theorem density_of_account {ones n : ℕ} {before after s : ℤ} (hn : 0 < n)
    (haccount : after = before + ones * 65535 - 32 * n * (s + 32768))
    (hchange : |after - before| < 65535) :
    (ones : ℚ) / (32 * n) = ((s : ℚ) + 32768) / 65535 + (after - before) / (65535 * (32 * n)) ∧
      |(ones : ℚ) / (32 * n) - ((s : ℚ) + 32768) / 65535| < 1 / (32 * n) := by
  have hbits : (0 : ℚ) < 32 * n := by positivity
  have hfull : (0 : ℚ) < 65535 := by norm_num
  have hdensity : (ones : ℚ) / (32 * n) =
      ((s : ℚ) + 32768) / 65535 + (after - before) / (65535 * (32 * n)) := by
    rw [haccount]
    push_cast
    field_simp
    ring
  refine ⟨hdensity, ?_⟩
  rw [hdensity, add_sub_cancel_left, abs_div, abs_of_pos (mul_pos hfull hbits), ← div_div]
  exact div_lt_div_of_pos_right ((div_lt_one hfull).2 (by exact_mod_cast hchange)) hbits

end EncoderRules

/-! ### Outside the range (R63) -/

/-- A function that takes `d` from a positive distance `D` and lands in `P`, to stay, when the distance is at most `d`,
meets `P` after `m` steps exactly when `m` steps cover the distance. -/
theorem iterate_mem_iff_distance_le {α : Type} {P : α → Prop} {f : α → α} {D : α → Int} {d : Int}
    (hkeep : ∀ a, P a → P (f a)) (hout : ∀ a, 0 < D a → ¬ P a)
    (hfar : ∀ a, 0 < D a → D (f a) = D a - d) (hnear : ∀ a, 0 < D a → D a ≤ d → P (f a))
    (hd : 0 < d) (m : Nat) {a : α} (ha : 0 < D a) : P (f^[m] a) ↔ D a ≤ m * d := by
  induction m generalizing a with
  | zero => simpa [ha.not_ge] using hout a ha
  | succ m ih =>
    rw [Function.iterate_succ_apply]
    rcases le_or_gt (D a) d with hle | hgt
    · have hP : P (f^[m] (f a)) := Function.Iterate.rec P (hnear a ha hle) hkeep m
      have hcover : 0 ≤ m * d := by positivity
      refine iff_of_true hP ?_
      push_cast
      linarith
    · rw [ih (by rw [hfar a ha]; omega), hfar a ha]
      push_cast
      constructor <;> intro <;> linarith

section OutOfRange

variable {acc : BitVec 32}

theorem not_accInRange_of_above (h : 32767 < acc.toInt) : ¬ accInRange acc := fun hrange =>
  hrange.2.not_gt h

theorem not_accInRange_of_below (h : acc.toInt < -32767) : ¬ accInRange acc := fun hrange =>
  hrange.1.not_gt h

/-- Above the range every sample is below the accumulator: the bit is 0. -/
theorem bitStep_above (s : Sample) (h : 32767 < acc.toInt) :
    bitStep acc s = (false, BitVec.ofInt 32 (acc.toInt - (s.toInt + 32768))) := by
  have hmax : s.toInt < 32768 := s.toInt_lt
  rw [bitStep_zero (by omega), show -32768 - s.toInt = -(s.toInt + 32768) by ring, ← sub_eq_add_neg]

/-- Below the range no sample is below the accumulator: the bit is 1. -/
theorem bitStep_below (s : Sample) (h : acc.toInt < -32767) :
    bitStep acc s = (true, BitVec.ofInt 32 (acc.toInt + (32767 - s.toInt))) := by
  have hmin : -32768 ≤ s.toInt := s.le_toInt
  exact bitStep_one (by omega)

/-- Above the range the step towards it does not wrap. -/
theorem nextAcc_toInt_above (s : Sample) (h : 32767 < acc.toInt) :
    (nextAcc s acc).toInt = acc.toInt - (s.toInt + 32768) := by
  have hmin : -32768 ≤ s.toInt := s.le_toInt
  have hmax : s.toInt < 32768 := s.toInt_lt
  have hacc : acc.toInt < 2147483648 := acc.toInt_lt
  rw [nextAcc, bitStep_above s h]
  exact BitVec.toInt_ofInt_eq_self (by decide) (by norm_num; omega) (by norm_num; omega)

/-- Below the range the step towards it does not wrap. -/
theorem nextAcc_toInt_below (s : Sample) (h : acc.toInt < -32767) :
    (nextAcc s acc).toInt = acc.toInt + (32767 - s.toInt) := by
  have hmin : -32768 ≤ s.toInt := s.le_toInt
  have hmax : s.toInt < 32768 := s.toInt_lt
  have hacc : -2147483648 ≤ acc.toInt := acc.le_toInt
  rw [nextAcc, bitStep_below s h]
  exact BitVec.toInt_ofInt_eq_self (by decide) (by norm_num; omega) (by norm_num; omega)

/-- From above, the range is met once the steps of `s + 32768` cover the distance to 32767; the last one cannot pass
below -32767, for a step is at most 65535. -/
theorem accInRange_iterate_above_iff {s : Sample} (hs : -32768 < s.toInt) (h : 32767 < acc.toInt)
    (m : Nat) :
    accInRange ((nextAcc s)^[m] acc) ↔ acc.toInt - 32767 ≤ m * (s.toInt + 32768) := by
  have hmax : s.toInt < 32768 := s.toInt_lt
  refine iterate_mem_iff_distance_le (P := accInRange) (D := fun a : BitVec 32 => a.toInt - 32767)
    (fun a ha => accInRange_bitStep (by decide) ha s) (fun a ha => ?_) (fun a ha => ?_)
    (fun a ha hle => ?_) (by omega) m (sub_pos.2 h)
  · exact not_accInRange_of_above (sub_pos.1 ha)
  · rw [nextAcc_toInt_above s (sub_pos.1 ha)]
    ring
  · rw [accInRange, nextAcc_toInt_above s (sub_pos.1 ha)]
    omega

/-- From below, the range is met once the steps of `32767 - s` cover the distance to -32767; the last one cannot pass
above 32767, for a step is at most 65535. -/
theorem accInRange_iterate_below_iff {s : Sample} (hs : s.toInt < 32767) (h : acc.toInt < -32767)
    (m : Nat) :
    accInRange ((nextAcc s)^[m] acc) ↔ -32767 - acc.toInt ≤ m * (32767 - s.toInt) := by
  have hmin : -32768 ≤ s.toInt := s.le_toInt
  refine iterate_mem_iff_distance_le (P := accInRange) (D := fun a : BitVec 32 => -32767 - a.toInt)
    (fun a ha => accInRange_bitStep (by decide) ha s) (fun a ha => ?_) (fun a ha => ?_)
    (fun a ha hle => ?_) (by omega) m (sub_pos.2 h)
  · exact not_accInRange_of_below (sub_pos.1 ha)
  · rw [nextAcc_toInt_below s (sub_pos.1 ha)]
    ring
  · rw [accInRange, nextAcc_toInt_below s (sub_pos.1 ha)]
    omega

end OutOfRange

/-! ### The statements -/

/-- Settles O11: the two branches of the bit-step, the term's bounds from the sample's, and both examples evaluated. -/
theorem bitStepRule : Obligations.BitStepRule := by
  refine ⟨fun n acc s => ⟨bitStep_one, fun h => bitStep_zero (not_le.1 h), ?_⟩, by decide, by decide⟩
  have hmin : -32768 ≤ s.toInt := s.le_toInt
  have hmax : s.toInt < 32768 := s.toInt_lt
  omega

/-- Settles O13: the steps after step `i` move its bit up to place `31 - i`; the three examples are evaluated. -/
theorem encodeBitOrder : Obligations.EncodeBitOrder :=
  ⟨fun _ acc s => ⟨fun _ => encodeSample_getLsbD acc s, encodeSample_acc_eq_iterate acc s⟩,
    by decide, by decide, by decide⟩

/-- Settles O14: a full-scale sample's step leaves the accumulator alone, so it is the same step 32 times. -/
theorem encodeExtremes : Obligations.EncodeExtremes := by
  rintro acc ⟨hlow, hhigh⟩
  have hones : (shiftIn · true)^[32] 0#32 = 0xFFFFFFFF#32 := by decide
  have hzeros : (shiftIn · false)^[32] 0#32 = 0x00000000#32 := by decide
  have hmax := bitStep_of_sMax (s := wrap 16 32767) (by decide) hhigh
  have hmin := bitStep_of_sMin (s := wrap 16 (-32768)) (by decide) hlow
  rw [encodeSample_eq, encodeSample_eq, encodeSteps_of_bitStep_fixed hmax,
    encodeSteps_of_bitStep_fixed hmin, hones, hzeros]
  exact ⟨rfl, rfl⟩

/-- Settles O15: the account of a word's ones, whose other side is an accumulator of the range. -/
theorem onesCountIdentity : Obligations.OnesCountIdentity := by
  refine ⟨fun acc s h => ?_, by decide, by decide⟩
  have haccount := encodeSample_account (by decide) h s
  obtain ⟨hlow, hhigh⟩ := accInRange_encodeSample (by decide) h s
  exact ⟨by linarith, abs_le.2 ⟨by linarith, by linarith⟩⟩

/-- Settles O16: the account over `n` words, divided by the bits; both accumulators are of the range. -/
theorem dutyCycle : Obligations.DutyCycle := by
  intro acc s n h hn
  have haccount := encodeRun_replicate_account (by decide) h s n
  obtain ⟨hlow, hhigh⟩ := h
  obtain ⟨hlow', hhigh'⟩ := accInRange_encodeRun (by decide) ⟨hlow, hhigh⟩ (List.replicate n s)
  exact density_of_account hn haccount (abs_lt.2 ⟨by omega, by omega⟩)

/-- Settles O17: outside the range the bit is forced, the matching full-scale sample adds nothing, and any other one
brings the accumulator into the range once its steps cover the distance. -/
theorem outOfRangeRecovery : Obligations.OutOfRangeRecovery := by
  refine ⟨fun acc s h => ⟨bitStep_above s h, fun hs => ?_, fun hs m => ?_⟩,
    fun acc s h => ⟨bitStep_below s h, fun hs => ?_, fun hs m => ?_⟩⟩
  · rw [bitStep_of_sMin hs (by omega)]
  · rw [accInRange_iterate_above_iff hs h m, div_le_iff₀ (by norm_cast; omega)]
    norm_cast
  · rw [bitStep_of_sMax hs (by omega)]
  · rw [accInRange_iterate_below_iff hs h m, div_le_iff₀ (by norm_cast; omega)]
    norm_cast

end Sys2Proof.Proofs
end

section
/-! PROOFS of the statements of 41_schedule.md. The rules they need, each said once: what offering an action to the queue
leaves of a block, that every scheduling command is such an offer, and when a target ahead of the clock comes due. -/

namespace Sys2Proof.Proofs

open Sys2Proof.Machine Sys2Proof.Laws

/-! ### An action offered to the queue (R64, R67) -/

section Offer

variable {accW clkW curW cbW : Nat}

/-- The block after the action `a` was offered to its queue: unchanged where the queue is full, otherwise with `a` stored
at the in cursor (R64, R67). -/
def offered (b : Block accW clkW curW cbW) (a : Action clkW cbW) : Block accW clkW curW cbW :=
  { b with
    slots := if qFull b then b.slots else memWrite b.slots (slotIndex b.qin) a
    qin := if qFull b then b.qin else increment b.qin }

variable (b : Block accW clkW curW cbW) (a : Action clkW cbW)

@[simp] theorem offered_acc : (offered b a).acc = b.acc := rfl
@[simp] theorem offered_sclk : (offered b a).sclk = b.sclk := rfl
@[simp] theorem offered_qout : (offered b a).qout = b.qout := rfl
@[simp] theorem offered_phase : (offered b a).phase = b.phase := rfl

variable {b}

theorem offered_of_full (h : qFull b) : offered b a = b := by
  rw [offered, if_pos h, if_pos h]

theorem offered_of_room (h : ¬ qFull b) :
    offered b a = { b with
      slots := memWrite b.slots (slotIndex b.qin) a
      qin := increment b.qin } := by
  rw [offered, if_neg h, if_neg h]

/-- `Enqueue` is the offer of its action, without an event (R64). -/
theorem enqueue_eq_offered (t : BitVec clkW) (cb : BitVec cbW) (b : Block accW clkW curW cbW) :
    enqueue t cb b = .ok (offered b ⟨t, cb⟩, []) := by
  by_cases hfull : qFull b
  · rw [enqueue_of_full hfull, offered_of_full _ hfull]
  · rw [enqueue_of_room hfull, offered_of_room _ hfull]

theorem blockInv_offered (hw : 5 ≤ curW) (h : blockInv b) : blockInv (offered b a) :=
  blockInv_enqueue hw h (enqueue_eq_offered a.target a.cb b)

/-- An offer reaches no slot but the one at the in cursor (R64). -/
theorem memRead_offered_other {j : SlotIndex} (hj : j ≠ slotIndex b.qin) :
    memRead (offered b a).slots j = memRead b.slots j := by
  by_cases hfull : qFull b
  · rw [offered_of_full a hfull]
  · rw [offered_of_room a hfull]
    exact memRead_memWrite_other _ _ hj

/-- An offer leaves every pending action in its slot (R69). -/
theorem memRead_offered_pending (hw : 5 ≤ curW) {j : Nat} (hj : j < pendingCount b) :
    memRead (offered b a).slots (pendingIndex b j) = memRead b.slots (pendingIndex b j) := by
  by_cases hfull : qFull b
  · rw [offered_of_full a hfull]
  · exact memRead_offered_other a (pendingIndex_ne_slotIndex_qin hw hfull hj)

theorem pendingActions_length_le (h : blockInv b) : (pendingActions b).length ≤ 16 := by
  obtain ⟨-, hcap, -, hwritten, -⟩ := h
  exact (pendingActions_length hwritten).trans_le hcap

/-- The offered action comes behind the pending ones, of which there are never more than 16 (R67, R68). -/
theorem pendingActions_offered (hw : 5 ≤ curW) (h : blockInv b) :
    pendingActions (offered b a) = (pendingActions b ++ [a]).take 16 := by
  have hle := pendingActions_length_le h
  obtain ⟨-, -, -, hwritten, -⟩ := h
  have hlength := pendingActions_length hwritten
  by_cases hfull : qFull b
  · rw [offered_of_full a hfull, List.take_left' (le_antisymm hle (hlength.symm ▸ hfull))]
  · rw [offered_of_room a hfull, pendingActions_enqueue hw hfull, List.take_of_length_le]
    rw [List.length_append, hlength]
    exact Nat.lt_of_not_le hfull

/-- What stands beyond the first `n` does not matter to the first `n` of a longer list. -/
theorem take_take_append {α : Type} (n : Nat) (l m : List α) :
    (l.take n ++ m).take n = (l ++ m).take n := by
  rcases le_total l.length n with hle | hge
  · rw [List.take_of_length_le hle]
  · rw [List.take_left' (List.length_take_of_le hge), List.take_append_of_le_length hge]

/-- Offers one after another: the first come first, up to 16 pending in all (R67, R68). -/
theorem pendingActions_foldl_offered (hw : 5 ≤ curW) (as : List (Action clkW cbW)) (h : blockInv b) :
    pendingActions (as.foldl offered b) = (pendingActions b ++ as).take 16 := by
  induction as generalizing b with
  | nil =>
    rw [List.append_nil, List.take_of_length_le (pendingActions_length_le h)]
    rfl
  | cons a as ih =>
    calc pendingActions (as.foldl offered (offered b a))
        = ((pendingActions b ++ [a]).take 16 ++ as).take 16 := by
          rw [ih (blockInv_offered a hw h), pendingActions_offered a hw h]
      _ = (pendingActions b ++ a :: as).take 16 := by
          rw [take_take_append, List.append_assoc, List.singleton_append]

end Offer

/-! ### The scheduling commands as requests (R65, R66) -/

/-- A request completes in every state, in both phases: it offers its action to the queue and does nothing else (R69). -/
theorem exec_requestCommand (q : SchedRequest) (s : State) :
    exec (requestCommand q) s =
      .next { s with block := offered s.block (requestAction s.block.sclk q) } := by
  have hrun : runCommand (commandOf (requestCommand q)) s.block =
      .ok (offered s.block (requestAction s.block.sclk q), []) := by
    cases q <;> exact enqueue_eq_offered _ _ _
  rw [exec_eq_commit, hrun, commit_ok, List.append_nil]

theorem exec_requestCommand_of_full (q : SchedRequest) {s : State} (h : qFull s.block) :
    exec (requestCommand q) s = .next s := by
  rw [exec_requestCommand, offered_of_full _ h]

theorem exec_requestCommand_of_room (q : SchedRequest) {s : State} (h : ¬ qFull s.block) :
    exec (requestCommand q) s = .next { s with
      block := { s.block with
        slots := memWrite s.block.slots (slotIndex s.block.qin) (requestAction s.block.sclk q)
        qin := increment s.block.qin } } := by
  rw [exec_requestCommand, offered_of_room _ h]

/-- Requests one after another offer their actions in that order, all of them with the clock as it stands (R36). -/
theorem runCommands_requests (qs : List SchedRequest) (s : State) :
    runCommands (qs.map requestCommand) s =
      .next { s with block := (qs.map (requestAction s.block.sclk)).foldl offered s.block } := by
  induction qs generalizing s with
  | nil => rfl
  | cons q qs ih =>
    rw [List.map_cons, runCommands_cons, exec_requestCommand, andThen_next, ih]
    rfl

/-- A delta's target is the sum of clock and delta modulo `2^32` (R66). -/
theorem relTarget_eq_ofNat (k d : Count) : relTarget k d = BitVec.ofNat 32 (k.toNat + d.toNat) := by
  simp [relTarget, BitVec.ofNat_add]

/-- The delta that reaches a target is its distance from the clock (R70). -/
theorem relTarget_sub_self (k t : Count) : relTarget k (t - k) = t := by
  rw [relTarget, BitVec.add_comm, BitVec.sub_add_cancel]

/-! ### Targets ahead of the clock (R70, R73) -/

/-- `j` counts from now, at most half the range, a target is due when they have reached it, or when it stands so far ahead
that it still reads as past. -/
theorem due_add_ofNat_iff (t k : Count) {j : Nat} (hj : j ≤ 2147483648) :
    due t (k + BitVec.ofNat 32 j) ↔ (t - k).toNat ≤ j ∨ j + 2147483648 ≤ (t - k).toNat := by
  have hpassed : k + BitVec.ofNat 32 j - t = BitVec.ofNat 32 j - (t - k) := by ring
  have hlt := (t - k).isLt
  rw [due_iff (by decide), hpassed, BitVec.toNat_sub, BitVec.toNat_ofNat]
  omega

/-! ### The statements -/

/-- Settles O46: the requests are offered in order to a queue that keeps the first 16. -/
theorem fullQueueDropsNewest : Obligations.FullQueueDropsNewest := fun qs s hinv =>
  ⟨_, runCommands_requests qs s, rfl, pendingActions_foldl_offered (by decide) _ hinv⟩

/-- Settles O45: both commands offer the same action, and the running one is pending, so its slot is kept. -/
theorem nestedScheduling : Obligations.NestedScheduling := by
  intro i target cb s hinv hphase hi
  obtain ⟨q, rfl, haction⟩ :
      ∃ q, i = requestCommand q ∧ requestAction s.block.sclk q = ⟨target, cb⟩ := by
    rcases hi with rfl | rfl
    · exact ⟨.absolute target cb, rfl, rfl⟩
    · exact ⟨.relative _ cb, rfl, congrArg (Machine.Action.mk · cb) (relTarget_sub_self _ _)⟩
  refine ⟨fun hfull => exec_requestCommand_of_full q hfull.ge,
    fun hroom => ⟨_, exec_requestCommand q s, ?_, ?_⟩⟩
  · rw [haction, offered_of_room _ (Nat.not_le.2 hroom)]
    exact pendingActions_enqueue (by decide) (Nat.not_le.2 hroom) _
  · obtain ⟨-, -, hrunning, -⟩ := hinv
    rw [offered_qout, ← pendingIndex_zero]
    exact memRead_offered_pending _ (by decide) (hrunning hphase)

/-- Settles O21: the invariant bounds the pending count of reachable states, and an offer is dropped or stored. -/
theorem enqueueStep : Obligations.EnqueueStep := by
  refine ⟨fun s hreach => ?_, fun _ _ _ _ _ _ _ => ⟨enqueue_of_full, fun hroom => ?_⟩⟩
  · obtain ⟨-, hcap, -⟩ := blockInv_of_reachable hreach
    exact ⟨le_antisymm hcap, Eq.ge⟩
  · exact ⟨_, enqueue_of_room hroom, rfl, rfl, rfl, rfl, rfl, memRead_memWrite_same _ _ _,
      fun i => memRead_memWrite_other _ _⟩

/-- Settles O27: both commands are requests, and a request only offers its action. -/
theorem schedFrame : Obligations.SchedFrame := by
  intro i s t hi hexec
  obtain ⟨q, rfl⟩ : ∃ q, i = requestCommand q := by
    rcases hi with ⟨n, cb, rfl⟩ | ⟨n, cb, rfl⟩
    · exact ⟨.absolute n cb, rfl⟩
    · exact ⟨.relative n cb, rfl⟩
  rw [exec_requestCommand] at hexec
  cases hexec
  refine ⟨rfl, rfl, rfl, rfl, rfl, rfl, fun j => memRead_offered_other _, fun hfull => ?_⟩
  rw [offered_of_full _ hfull]

/-- Settles O38: a target at most half the range ahead is reached exactly by its own distance in counts; one count reaches
the clock itself, and reads a target further ahead as past. -/
theorem targetDistance : Obligations.TargetDistance := by
  intro t k
  refine ⟨fun hlow hhigh j hj hle => ?_, fun hdistance => ?_⟩
  · rw [due_add_ofNat_iff t k (hle.trans hhigh)]
    omega
  · refine (due_add_ofNat_iff t k (j := 1) (by decide)).2 ?_
    omega

/-- Settles O22: the absolute request, whose action holds the target as given. -/
theorem schedAbsResult : Obligations.SchedAbsResult := fun t cb _ =>
  ⟨exec_requestCommand_of_full (.absolute t cb), exec_requestCommand_of_room (.absolute t cb)⟩

/-- Settles O23: the relative request, whose action holds the sum of clock and delta. -/
theorem schedRelResult : Obligations.SchedRelResult := fun d cb s => by
  rw [← relTarget_eq_ofNat]
  exact ⟨exec_requestCommand_of_full (.relative d cb), exec_requestCommand_of_room (.relative d cb)⟩

end Sys2Proof.Proofs
end

section
/-! PROOFS of the statements of 42_emit_and_fire.md. The rules they need, each said once: `EMIT` as its word and the poll of
the head, the encoder and the scheduler apart, a run of `EMIT`s that fires nothing, one firing served, and the handler's
callback as a whole. -/

namespace Sys2Proof.Proofs

open Sys2Proof.Machine Sys2Proof.Laws

/-! ### `EMIT` as a word and a poll, the other commands without a word (R72, R74) -/

section EmitParts

variable {accW clkW curW cbW : Nat} {x : Sample} {b b' : Block accW clkW curW cbW}
  {events : List (Event cbW)}

/-- `EMIT` completes exactly in the host context and where the poll of the head does, its word in front. -/
theorem emitBlock_eq_ok_iff :
    emitBlock x b = .ok (b', events) ↔ b.phase = .idle ∧ ∃ polled,
      pollHead (emitWord x b).1 = .ok (b', polled) ∧
        events = .word (encodeSample b.acc x).1 :: polled := by
  refine ⟨fun h => ?_, fun ⟨hp, polled, hpoll, hevents⟩ => hevents ▸ emitBlock_of_poll hp hpoll⟩
  have hp : b.phase = .idle := (emitBlock_ok h).1
  rw [emitBlock_of_idle hp, continueWith] at h
  split at h
  · rename_i c polled hpoll
    cases h
    exact ⟨hp, polled, hpoll, rfl⟩
  · cases h

/-- What `EMIT` takes from the encoder, whether it fires or not: one word, and the accumulator left. -/
theorem emitBlock_encodes (h : emitBlock x b = .ok (b', events)) :
    b'.acc = (encodeSample b.acc x).2 ∧ b'.sclk = increment b.sclk ∧
      wordsOf events = [(encodeSample b.acc x).1] := by
  obtain ⟨-, ⟨rfl, rfl, -⟩ | ⟨a, -, -, rfl, rfl⟩⟩ := emitBlock_ok h
  · exact ⟨rfl, rfl, rfl⟩
  · exact ⟨rfl, rfl, rfl⟩

/-- One `EMIT` fires at most one action (R74). -/
theorem firesOf_emitBlock_length_le (h : emitBlock x b = .ok (b', events)) :
    (firesOf events).length ≤ 1 := by
  obtain ⟨-, ⟨-, rfl, -⟩ | ⟨a, -, -, -, rfl⟩⟩ := emitBlock_ok h
  · exact Nat.zero_le 1
  · exact le_rfl

/-- A command other than `EMIT` outputs nothing, does not advance the clock and opens no window. -/
theorem runCommand_of_not_emit {c : Command clkW cbW} (hc : ∀ x, c ≠ .emit x)
    (h : runCommand c b = .ok (b', events)) :
    events = [] ∧ b'.acc = b.acc ∧ b'.sclk = b.sclk ∧
      b'.phase = if c = .ret then .idle else b.phase := by
  cases c with
  | emit x => exact absurd rfl (hc x)
  | schedAbs t cb =>
    cases (enqueue_eq_offered _ _ b).symm.trans h
    exact ⟨rfl, rfl, rfl, rfl⟩
  | schedRel d cb =>
    cases (enqueue_eq_offered _ _ b).symm.trans h
    exact ⟨rfl, rfl, rfl, rfl⟩
  | ret =>
    obtain ⟨-, rfl, rfl⟩ := retBlock_ok h
    exact ⟨rfl, rfl, rfl, rfl⟩

/-- The clock advances by the words output (R81). -/
theorem runCommand_words {c : Command clkW cbW} (h : runCommand c b = .ok (b', events)) :
    b'.sclk = b.sclk + BitVec.ofNat clkW (wordsOf events).length := by
  by_cases hc : ∃ x, c = .emit x
  · obtain ⟨x, rfl⟩ := hc
    obtain ⟨-, hsclk, hwords⟩ := emitBlock_encodes h
    rw [hsclk, hwords]
    rfl
  · obtain ⟨rfl, -, hsclk, -⟩ := runCommand_of_not_emit (not_exists.1 hc) h
    simpa using hsclk

theorem commandOf_ne_emit {i : Instr} (hi : ∀ x, i ≠ .emit x) (x : Sample) : commandOf i ≠ .emit x :=
  mt commandOf_eq_emit (hi x)

/-- Every step keeps the clock equal to the words output (R81). -/
theorem clockCountsWords_step {s t : State} (h : clockCountsWords s) (hstep : step s = .next t) :
    clockCountsWords t := by
  rcases step_next_runCommand hstep with rfl | ⟨_, _, _, events, -, -, hrun, htrace⟩
  · exact h
  · rw [clockCountsWords, runCommand_words hrun, h, htrace, wordsOf_append, List.length_append,
      BitVec.ofNat_add]

/-- From the reset accumulator a zero sample encodes to alternating bits (R72's example). -/
theorem encodeSample_reset_zero :
    encodeSample (Block.reset 32 32 32 16).acc 0 = (0xAAAAAAAA#32, wrap 32 (-16)) := by decide

theorem retBlock_of_firing (hp : b.phase = .firing) : retBlock b = .ok (closeWindow b, []) := by
  simp [retBlock, hp]

theorem retBlock_of_idle (hp : b.phase = .idle) : retBlock b = .error .retOutsideFireWindow := by
  simp [retBlock, hp]

theorem firesOf_cons_word (w : BitWord) (events : List (Event cbW)) :
    firesOf (.word w :: events) = firesOf events := rfl

end EmitParts

/-! ### The encoder and the scheduler apart (R82) -/

section Independence

variable {accW clkW curW cbW : Nat} {b c : Block accW clkW curW cbW} (acc : BitVec accW)

/-- Blocks with one scheduler differ in the accumulator only. -/
theorem eq_with_acc_of_sameScheduler (h : sameScheduler b c) : c = { b with acc := c.acc } := by
  obtain ⟨hsclk, hqin, hqout, hslots, hphase⟩ := h
  rw [hsclk, hqin, hqout, hslots, hphase]

/-- The poll of the head does not look at the accumulator and carries it along. -/
theorem pollHead_with_acc (b : Block accW clkW curW cbW) :
    pollHead { b with acc := acc } = (pollHead b).map fun r => ({ r.1 with acc := acc }, r.2) := by
  have hview : headView { b with acc := acc } = headView b := rfl
  cases hhead : headView b with
  | empty => rw [pollHead_of_empty hhead, pollHead_of_empty (hview.trans hhead)]; rfl
  | unwritten => rw [pollHead_of_unwritten hhead, pollHead_of_unwritten (hview.trans hhead)]; rfl
  | pending a =>
    by_cases hdue : due a.target b.sclk
    · rw [pollHead_of_due hhead hdue, pollHead_of_due (hview.trans hhead) hdue]; rfl
    · rw [pollHead_of_not_due hhead hdue, pollHead_of_not_due (hview.trans hhead) hdue]; rfl

theorem enqueue_with_acc (t : BitVec clkW) (cb : BitVec cbW) (b : Block accW clkW curW cbW) :
    enqueue t cb { b with acc := acc } =
      (enqueue t cb b).map fun r => ({ r.1 with acc := acc }, r.2) := by
  rw [enqueue_eq_offered, enqueue_eq_offered]
  rfl

theorem retBlock_with_acc (b : Block accW clkW curW cbW) :
    retBlock { b with acc := acc } = (retBlock b).map fun r => ({ r.1 with acc := acc }, r.2) := by
  obtain ⟨_, _, _, _, _, _ | _⟩ := b
  · rfl
  · rfl

/-- No command but `EMIT` looks at the accumulator. -/
theorem runCommand_with_acc {i : Command clkW cbW} (hi : ∀ x, i ≠ .emit x)
    (b : Block accW clkW curW cbW) :
    runCommand i { b with acc := acc } =
      (runCommand i b).map fun r => ({ r.1 with acc := acc }, r.2) := by
  cases i with
  | emit x => exact absurd rfl (hi x)
  | schedAbs t cb => exact enqueue_with_acc acc _ cb b
  | schedRel d cb => exact enqueue_with_acc acc _ cb b
  | ret => exact retBlock_with_acc acc b

end Independence

/-! ### `EMIT`s that fire nothing (R72, R73) -/

section Quiet

variable {accW clkW curW cbW : Nat}

/-- No action fires at any of the next `n` counts: the queue's head, if there is one, is written and not due at them. -/
def quietFor (n : Nat) (b : Block accW clkW curW cbW) : Prop :=
  headView b ≠ .unwritten ∧ ∀ a, headView b = .pending a →
    ∀ j, 1 ≤ j → j ≤ n → ¬ due a.target (b.sclk + BitVec.ofNat clkW j)

variable {n : Nat} {b : Block accW clkW curW cbW}

theorem quietFor_of_empty (h : qEmpty b) : quietFor n b := by
  have hhead := headView_empty_iff.2 h
  exact ⟨by simp [hhead], by simp [hhead]⟩

theorem quietFor_of_pending {a : Action clkW cbW} (hhead : headView b = .pending a)
    (h : ∀ j, 1 ≤ j → j ≤ n → ¬ due a.target (b.sclk + BitVec.ofNat clkW j)) : quietFor n b := by
  refine ⟨by simp [hhead], fun a' hhead' => ?_⟩
  cases hhead.symm.trans hhead'
  exact h

theorem pollHead_of_quiet (h : quietFor (n + 1) b) (x : Sample) :
    pollHead (emitWord x b).1 = .ok ((emitWord x b).1, []) := by
  obtain ⟨hwritten, hnot⟩ := h
  rw [← emitWord_headView x b] at hwritten hnot
  cases hhead : headView (emitWord x b).1 with
  | empty => exact pollHead_of_empty hhead
  | unwritten => exact absurd hhead hwritten
  | pending a => exact pollHead_of_not_due hhead (hnot a hhead 1 le_rfl (Nat.le_add_left 1 n))

/-- The state that `EMIT`s of the samples `xs` leave when none of them fires: the encoder's words are output, its
accumulator is kept and the clock is advanced. -/
def emitted (xs : List Sample) (s : State) : State :=
  { s with
    block := { s.block with
      acc := (encodeRun s.block.acc xs).2
      sclk := s.block.sclk + BitVec.ofNat 32 xs.length }
    trace := s.trace ++ (encodeRun s.block.acc xs).1.map .word }

variable (xs : List Sample) (x : Sample) (s : State)

@[simp] theorem emitted_sclk : (emitted xs s).block.sclk = s.block.sclk + BitVec.ofNat 32 xs.length := rfl

@[simp] theorem emitted_nil : emitted [] s = s := by
  simp [emitted, encodeRun]

theorem emitted_singleton : emitted [x] s = { s with
    block := (emitWord x s.block).1
    trace := s.trace ++ [.word (encodeSample s.block.acc x).1] } := by
  simp [emitted, encodeRun, emitWord, increment]

theorem emitted_cons : emitted (x :: xs) s = emitted xs (emitted [x] s) := by
  simp [emitted, encodeRun, Nat.add_comm xs.length, BitVec.ofNat_add, BitVec.add_assoc]

@[simp] theorem firesOf_map_word (ws : List BitWord) : firesOf (ws.map (.word : BitWord → Event cbW)) = [] := by
  simp [firesOf]

@[simp] theorem firesOf_emitted : firesOf (emitted xs s).trace = firesOf s.trace := by
  simp [emitted]

/-- After one quiet count the next ones are as quiet as they were. -/
theorem quietFor_emitted {x : Sample} {s : State} (h : quietFor (n + 1) s.block) :
    quietFor n (emitted [x] s).block := by
  obtain ⟨hwritten, hnot⟩ := h
  refine ⟨hwritten, fun a hhead j hj hle => ?_⟩
  have hsclk : (emitted [x] s).block.sclk + BitVec.ofNat 32 j = s.block.sclk + BitVec.ofNat 32 (j + 1) := by
    rw [emitted_sclk, BitVec.ofNat_add, BitVec.add_comm (BitVec.ofNat 32 j), ← BitVec.add_assoc]
    rfl
  rw [hsclk]
  exact hnot a hhead (j + 1) (Nat.le_add_left 1 j) (Nat.succ_le_succ hle)

theorem exec_emit_of_quiet {s : State} (hp : s.block.phase = .idle) (h : quietFor (n + 1) s.block) :
    exec (.emit x) s = .next (emitted [x] s) :=
  exec_next_iff.2 ⟨_, _, emitBlock_of_poll hp (pollHead_of_quiet h x), emitted_singleton x s⟩

/-- `EMIT`s at quiet counts all complete, and are the encoder and the clock alone. -/
theorem runCommands_emits_of_quiet {xs : List Sample} {s : State} (hp : s.block.phase = .idle)
    (h : quietFor xs.length s.block) : runCommands (xs.map .emit) s = .next (emitted xs s) := by
  induction xs generalizing s with
  | nil => rw [emitted_nil]; rfl
  | cons x xs ih =>
    rw [List.map_cons, runCommands_cons, exec_emit_of_quiet x hp h, andThen_next, emitted_cons xs x s]
    exact ih hp (quietFor_emitted h)

end Quiet

/-! ### One firing, and its `RET` (R72, R76, R77) -/

section Firing

/-- `EMIT` with a due head: the word, then the firing, and the window is open. -/
theorem exec_emit_of_due {s : State} {a : Action 32 16} (x : Sample) (hp : s.block.phase = .idle)
    (hhead : headView s.block = .pending a) (hdue : due a.target (increment s.block.sclk)) :
    exec (.emit x) s = .next { s with
      block := (fire a.cb (emitWord x s.block).1).1
      trace := s.trace ++ [.word (encodeSample s.block.acc x).1, .fire a.cb] } :=
  exec_next_iff.2 ⟨_, _,
    emitBlock_of_poll hp (pollHead_of_due ((emitWord_headView x s.block).trans hhead) hdue), rfl⟩

theorem exec_ret_of_firing {s : State} (hp : s.block.phase = .firing) :
    exec .ret s = .next { s with block := closeWindow s.block } :=
  exec_next_iff.2 ⟨_, _, retBlock_of_firing hp, by rw [List.append_nil]⟩

theorem exec_ret_of_idle {s : State} (hp : s.block.phase = .idle) :
    exec .ret s = .refused .retOutsideFireWindow := by
  rw [exec_eq_commit]
  exact commit_refused_iff.2 (retBlock_of_idle hp)

/-- Two lists of commands in a row are one run (R36). -/
theorem runCommands_append (is js : List Instr) (s : State) :
    runCommands (is ++ js) s = andThen (runCommands is s) (runCommands js) := by
  induction is generalizing s with
  | nil => rfl
  | cons i is ih =>
    rw [List.cons_append, runCommands_cons, runCommands_cons]
    cases exec i s with
    | next t => exact ih t
    | fault r => rfl
    | refused r => rfl

end Firing

/-! ### A request on an empty queue (R66, R73, R75) -/

section Scheduled

variable {accW clkW curW cbW : Nat} {b : Block accW clkW curW cbW} {a : Action clkW cbW}

theorem not_qFull_of_qEmpty (h : qEmpty b) : ¬ qFull b := by
  simp [qFull, (qEmpty_iff b).1 h]

/-- The only pending action is the head. -/
theorem headView_offered_of_empty (hw : 5 ≤ curW) (h : qEmpty b) :
    headView (offered b a) = .pending a := by
  have hroom := not_qFull_of_qEmpty h
  rw [offered_of_room a hroom]
  refine headView_pending_iff.2 ⟨fun hempty => ?_, ?_⟩
  · have hcount := (qEmpty_iff _).1 hempty
    rw [pendingCount_enqueue hw hroom] at hcount
    exact absurd hcount (Nat.succ_ne_zero _)
  · change memRead (memWrite b.slots (slotIndex b.qin) a) (slotIndex b.qout) = some a
    rw [h, memRead_memWrite_same]

/-- Once the only pending action is reclaimed the queue is empty again. -/
theorem qEmpty_closeWindow_offered (h : qEmpty b) : qEmpty (closeWindow (offered b a)) := by
  rw [offered_of_room a (not_qFull_of_qEmpty h)]
  exact congrArg increment h

/-- A delta of at most half the range is reached by its own number of counts, a zero one by the first (R70, R73). -/
theorem due_relTarget_iff {k d : Count} {j : Nat} (hd : d.toNat ≤ 2147483648) (hpos : 1 ≤ j)
    (hj : j ≤ 2147483648) : due (relTarget k d) (k + BitVec.ofNat 32 j) ↔ d.toNat ≤ j := by
  have hdistance : relTarget k d - k = d := by
    rw [relTarget, BitVec.add_comm, BitVec.add_sub_cancel]
  rw [due_add_ofNat_iff _ _ hj, hdistance]
  omega

variable {s : State} {d : Count}

/-- A run that begins with a relative request goes on from the block that was offered its action. -/
theorem runCommands_schedRel_cons (d : Count) (cb : Tag) (is : List Instr) (s : State) :
    runCommands (.schedRel d cb :: is) s =
      runCommands is { s with block := offered s.block ⟨relTarget s.block.sclk d, cb⟩ } := by
  have hexec := exec_requestCommand (.relative d cb) s
  rw [requestCommand, requestAction] at hexec
  rw [runCommands_cons, hexec, andThen_next]

/-- A request on an empty queue is not due before its own count. -/
theorem quietFor_offered_relTarget {n : Nat} {k : Block 32 32 32 16} (cb : Tag) (hempty : qEmpty k)
    (hd : d.toNat ≤ 2147483648) (hn : n < max d.toNat 1) :
    quietFor n (offered k ⟨relTarget k.sclk d, cb⟩) := by
  refine quietFor_of_pending (headView_offered_of_empty (by decide) hempty) fun j hpos hj hdue => ?_
  rw [offered_sclk, due_relTarget_iff hd hpos (by omega)] at hdue
  omega

/-- `EMIT`s on a state whose only action comes due at the last of them fire it then, and leave the window open. -/
theorem runCommands_emits_then_fires {a : Action 32 16} (xs : List Sample) (x : Sample)
    (hp : s.block.phase = .idle) (hhead : headView s.block = .pending a)
    (hquiet : quietFor xs.length s.block)
    (hdue : due a.target (s.block.sclk + BitVec.ofNat 32 (xs.length + 1))) :
    runCommands ((xs ++ [x]).map .emit) s = .next { emitted xs s with
      block := (fire a.cb (emitWord x (emitted xs s).block).1).1
      trace := (emitted xs s).trace ++
        [.word (encodeSample (emitted xs s).block.acc x).1, .fire a.cb] } := by
  rw [BitVec.ofNat_add, ← BitVec.add_assoc] at hdue
  rw [List.map_append, runCommands_append, runCommands_emits_of_quiet hp hquiet, andThen_next,
    List.map_singleton, runCommands_cons, exec_emit_of_due (s := emitted xs s) x hp hhead hdue,
    andThen_next, runCommands_nil]

end Scheduled

/-! ### Due actions in a row (R74, R79) -/

section Backlog

variable {s : State} {a : Action 32 16}

/-- Where every pending slot is written, the oldest pending action is the head. -/
theorem headView_of_pendingActions_cons {b : Block 32 32 32 16} {rest : List (Action 32 16)}
    (hwritten : pendingWritten b) (h : pendingActions b = a :: rest) :
    headView b = .pending a ∧ pendingActions (closeWindow b) = rest := by
  cases hhead : headView b with
  | empty => rw [pendingActions_of_headView_empty hhead] at h; cases h
  | unwritten => exact absurd hhead (headView_ne_unwritten hwritten)
  | pending a' =>
    rw [pendingActions_of_headView_pending (by decide) hhead] at h
    cases h
    exact ⟨rfl, rfl⟩

/-- The state after an `EMIT` that fired `a` and the `RET` of its callback: the action is reclaimed. -/
def firedAndReturned (x : Sample) (a : Action 32 16) (s : State) : State :=
  { s with
    block := closeWindow (emitWord x s.block).1
    trace := s.trace ++ [.word (encodeSample s.block.acc x).1, .fire a.cb] }

@[simp] theorem firedAndReturned_pendingActions (x : Sample) :
    pendingActions (firedAndReturned x a s).block = pendingActions (closeWindow s.block) := rfl
@[simp] theorem firedAndReturned_fires (x : Sample) :
    firesOf (firedAndReturned x a s).trace = firesOf s.trace ++ [a.cb] := firesOf_append _ _

theorem blockInv_firedAndReturned (x : Sample) (h : blockInv s.block)
    (hhead : headView s.block = .pending a) : blockInv (firedAndReturned x a s).block :=
  blockInv_closeWindow (b := (fire a.cb (emitWord x s.block).1).1) (by decide)
    (blockInv_fire (blockInv_emitWord (by decide) h x) ((emitWord_headView x s.block).trans hhead)) rfl

/-- A run that begins with an `EMIT` on a due head and its `RET` goes on from the reclaimed action. -/
theorem runCommands_emit_ret_cons (x : Sample) (is : List Instr) (hp : s.block.phase = .idle)
    (hhead : headView s.block = .pending a) (hdue : due a.target (increment s.block.sclk)) :
    runCommands (.emit x :: .ret :: is) s = runCommands is (firedAndReturned x a s) := by
  rw [runCommands_cons, exec_emit_of_due x hp hhead hdue, andThen_next, runCommands_cons,
    exec_ret_of_firing rfl, andThen_next]
  rfl

/-- The distance past a target grows by one per count, as long as it does not wrap. -/
theorem toNat_increment_sub {k t : Count} (h : (k - t).toNat + 1 < 2 ^ 32) :
    (increment k - t).toNat = (k - t).toNat + 1 := by
  rw [increment_sub, BitVec.toNat_add_of_lt h]
  rfl

end Backlog

/-! ### The handler's callback and the playing of samples (R96, R107) -/

section Playing

variable {s : State}

/-- Offers leave all but the queue's input side alone. -/
theorem foldl_offered_frame {accW clkW curW cbW : Nat} (as : List (Action clkW cbW))
    (b : Block accW clkW curW cbW) :
    (as.foldl offered b).acc = b.acc ∧ (as.foldl offered b).sclk = b.sclk ∧
      (as.foldl offered b).qout = b.qout ∧ (as.foldl offered b).phase = b.phase := by
  induction as generalizing b with
  | nil => exact ⟨rfl, rfl, rfl, rfl⟩
  | cons a as ih => exact ih (offered b a)

theorem blockInv_foldl_offered {accW clkW curW cbW : Nat} (hw : 5 ≤ curW)
    (as : List (Action clkW cbW)) {b : Block accW clkW curW cbW} (h : blockInv b) :
    blockInv (as.foldl offered b) := by
  induction as generalizing b with
  | nil => exact h
  | cons a as ih => exact ih (blockInv_offered a hw h)

/-- A callback is its requests' offers and the return (R107). -/
theorem runCommands_callback (qs : List SchedRequest) (hp : s.block.phase = .firing) :
    runCommands (qs.map requestCommand ++ [.ret]) s = .next { s with
      block := closeWindow ((qs.map (requestAction s.block.sclk)).foldl offered s.block) } := by
  obtain ⟨-, -, -, hphase⟩ := foldl_offered_frame (qs.map (requestAction s.block.sclk)) s.block
  rw [runCommands_append, runCommands_requests, andThen_next, runCommands_cons,
    exec_ret_of_firing (hphase.trans hp), andThen_next, runCommands_nil]

/-- Whatever the handler schedules, serving completes in the host context, without an event. -/
theorem serve_completes (h : Handler) (hinv : blockInv s.block) :
    ∃ t, serve h s = .next t ∧ blockInv t.block ∧ t.block.phase = .idle ∧ t.trace = s.trace ∧
      t.block.acc = s.block.acc ∧ t.block.sclk = s.block.sclk := by
  cases hp : s.block.phase with
  | idle => exact ⟨s, by simp [serve, hp], hinv, hp, rfl, rfl, rfl⟩
  | firing =>
    obtain ⟨hacc, hsclk, -, hphase⟩ :=
      foldl_offered_frame ((h s.trace).map (requestAction s.block.sclk)) s.block
    have hserve : serve h s = runCommands ((h s.trace).map requestCommand ++ [.ret]) s := by
      simp [serve, hp, callbackCommands]
    refine ⟨_, hserve.trans (runCommands_callback _ hp), ?_, rfl, rfl, hacc, hsclk⟩
    exact blockInv_closeWindow (by decide) (blockInv_foldl_offered (by decide) _ hinv) (hphase.trans hp)

/-- `EMIT` in the host context completes in every state of the invariant (R78, R110). -/
theorem exists_emitBlock_ok (x : Sample) {b : Block 32 32 32 16} (hinv : blockInv b)
    (hp : b.phase = .idle) : ∃ b' events, emitBlock x b = .ok (b', events) := by
  obtain ⟨-, -, -, hwritten, -⟩ := hinv
  rcases he : emitBlock x b with r | ⟨b', events⟩
  · rcases emitBlock_error he with ⟨-, hfiring⟩ | ⟨-, hhead⟩
    · cases hp.symm.trans hfiring
    · exact absurd hhead (headView_ne_unwritten hwritten)
  · exact ⟨b', events, rfl⟩

/-- One sample played: the encoder's word and accumulator, one count, and the host context again. -/
theorem playSample_completes (h : Handler) (x : Sample) (hinv : blockInv s.block)
    (hp : s.block.phase = .idle) :
    ∃ t, playSample h x s = .next t ∧ blockInv t.block ∧ t.block.phase = .idle ∧
      t.block.sclk = increment s.block.sclk ∧
      wordsOf t.trace = wordsOf s.trace ++ [(encodeSample s.block.acc x).1] ∧
      t.block.acc = (encodeSample s.block.acc x).2 := by
  obtain ⟨b, events, hemit⟩ := exists_emitBlock_ok x hinv hp
  have hexec : exec (.emit x) s = .next { s with block := b, trace := s.trace ++ events } :=
    exec_next_iff.2 ⟨b, events, hemit, rfl⟩
  obtain ⟨hacc, hsclk, hwords⟩ := emitBlock_encodes hemit
  obtain ⟨t, hserve, hinv', hp', htrace, hacc', hsclk'⟩ :=
    serve_completes (s := { s with block := b, trace := s.trace ++ events }) h
      (blockInv_emitBlock (by decide) hinv hemit)
  refine ⟨t, ?_, hinv', hp', hsclk'.trans hsclk, ?_, hacc'.trans hacc⟩
  · rw [playSample, hexec, andThen_next, hserve]
  · rw [htrace, wordsOf_append, hwords]

end Playing

/-! ### The statements -/

/-- Settles O43: before its own count the action is not due, at that count it fires, and its `RET` empties the queue. -/
theorem relativeActionFiresOnTime : Obligations.RelativeActionFiresOnTime := by
  intro d cb s xs hp hempty hd hlength
  obtain ⟨ys, x, rfl⟩ : ∃ ys x, xs = ys ++ [x] :=
    ⟨xs.dropLast, xs.getLast (by rintro rfl; rw [List.length_nil] at hlength; omega),
      (List.dropLast_append_getLast _).symm⟩
  have hhead := headView_offered_of_empty (a := ⟨relTarget s.block.sclk d, cb⟩) (by decide) hempty
  have hlen : ys.length + 1 = max d.toNat 1 := by rw [← hlength, List.length_append]; rfl
  have hdue : due (relTarget s.block.sclk d) (s.block.sclk + BitVec.ofNat 32 (ys.length + 1)) :=
    (due_relTarget_iff hd (by omega) (by omega)).2 (by omega)
  refine ⟨_, (runCommands_schedRel_cons _ _ _ _).trans
    (runCommands_emits_then_fires ys x hp hhead
      (quietFor_offered_relTarget cb hempty hd (by omega)) hdue), rfl, ?_, ?_,
    fun zs _ hshort => ?_, fun zs => ?_⟩
  · rw [firesOf_append, firesOf_emitted]
    rfl
  · rw [List.length_append, BitVec.ofNat_add, ← BitVec.add_assoc]
    rfl
  · refine ⟨_, (runCommands_schedRel_cons _ _ _ _).trans
      (runCommands_emits_of_quiet hp (quietFor_offered_relTarget cb hempty hd ?_)), hp,
      firesOf_emitted _ _⟩
    exact hshort.trans_eq hlength
  · rw [runCommands_cons, exec_ret_of_firing rfl, andThen_next]
    refine ⟨_, runCommands_emits_of_quiet rfl (quietFor_of_empty ?_), firesOf_emitted _ _⟩
    exact qEmpty_closeWindow_offered (a := ⟨relTarget s.block.sclk d, cb⟩) hempty

/-- Settles O44, by induction on the samples: the head is due and is reclaimed, which leaves the rest at the front, one
count nearer to the end of their windows. -/
theorem backlogFiresOnePerSample : Obligations.BacklogFiresOnePerSample := by
  intro s xs hinv hp hlength hwindow
  induction xs generalizing s with
  | nil => exact ⟨s, rfl, by simp, by simp⟩
  | cons x xs ih =>
    obtain ⟨a, rest, hpending⟩ := List.exists_cons_of_length_pos ((Nat.succ_pos _).trans_le hlength)
    have ⟨_, _, _, hwritten, _⟩ := hinv
    obtain ⟨hhead, hrest⟩ := headView_of_pendingActions_cons hwritten hpending
    rw [← firedAndReturned_pendingActions (a := a) x] at hrest
    rw [hpending] at hlength hwindow
    have hinside : ∀ a' ∈ a :: rest.take xs.length,
        (increment s.block.sclk - a'.target).toNat + (xs.length + 1) ≤ 2147483649 := hwindow
    have hdue : due a.target (increment s.block.sclk) :=
      (due_iff (by decide) _ _).2 (by have := hinside a List.mem_cons_self; omega)
    have hinside' : ∀ a' ∈ rest.take xs.length,
        (increment (increment s.block.sclk) - a'.target).toNat + xs.length ≤ 2147483649 := by
      intro a' ha'
      have hbound := hinside a' (List.mem_cons_of_mem a ha')
      rw [toNat_increment_sub (by omega)]
      omega
    obtain ⟨t, hrun, hfires, hdrop⟩ := ih _ (blockInv_firedAndReturned x hinv hhead) rfl
      (hrest.symm ▸ Nat.le_of_succ_le_succ hlength) (hrest.symm ▸ hinside')
    refine ⟨t, ?_, ?_, ?_⟩
    · rw [List.flatMap_cons]
      exact (runCommands_emit_ret_cons x _ hp hhead hdue).trans hrun
    · rw [hfires, firedAndReturned_fires, hrest, hpending, List.append_assoc]
      rfl
    · rw [hdrop, hrest, hpending]
      rfl

/-- Settles O49, by induction on the samples: each is encoded, and what it fires is served, before the next. -/
theorem playingCompletes : Obligations.PlayingCompletes := by
  intro h xs s hinv hp
  induction xs generalizing s with
  | nil => exact ⟨s, rfl, hinv, hp, by simp, by simp [encodeRun], rfl⟩
  | cons x xs ih =>
    obtain ⟨u, hplay, hinv', hp', hsclk, hwords, hacc⟩ := playSample_completes h x hinv hp
    obtain ⟨t, hrest, hinv'', hp'', hsclk', hwords', hacc'⟩ := ih u hinv' hp'
    refine ⟨t, ?_, hinv'', hp'', ?_, ?_, ?_⟩
    · rw [playSamples_cons, hplay, andThen_next, hrest]
    · rw [hsclk', hsclk, increment, List.length_cons, Nat.add_comm xs.length, BitVec.ofNat_add,
        BitVec.add_assoc]
    · rw [hwords', hwords, hacc, List.append_assoc]
      rfl
    · rw [hacc', hacc]
      rfl

/-- Settles O19: `EMIT`'s word and accumulator are the encoder's, and neither the poll of the head nor another command
looks at the accumulator. -/
theorem encoderAndSchedulerIndependent : Obligations.EncoderAndSchedulerIndependent := by
  refine fun accW clkW curW cbW => ⟨fun x b c b' c' e f hacc hb hc => ?_,
    fun x y b c b' e hsame hb => ?_, fun i b c b' e hi hsame hb => ?_⟩
  · obtain ⟨hacc', -, hwords⟩ := emitBlock_encodes hb
    obtain ⟨hacc'', -, hwords'⟩ := emitBlock_encodes hc
    rw [hacc', hacc'', hwords, hwords', hacc]
    exact ⟨rfl, rfl⟩
  · obtain ⟨hp, polled, hpoll, rfl⟩ := emitBlock_eq_ok_iff.1 hb
    have hpoll' := pollHead_with_acc (encodeSample c.acc y).2 (emitWord x b).1
    rw [hpoll] at hpoll'
    rw [eq_with_acc_of_sameScheduler hsame]
    exact ⟨_, _, emitBlock_eq_ok_iff.2 ⟨hp, polled, hpoll', rfl⟩, ⟨rfl, rfl, rfl, rfl, rfl⟩,
      by rw [firesOf_cons_word, firesOf_cons_word]⟩
  · obtain ⟨-, hacc, -, -⟩ := runCommand_of_not_emit hi hb
    have hrun := runCommand_with_acc c.acc hi b
    rw [hb] at hrun
    rw [eq_with_acc_of_sameScheduler hsame]
    exact ⟨hacc, _, hrun, rfl, rfl, rfl, rfl, rfl⟩

/-- Settles O26: a completed `EMIT` is its word alone, or its word and the firing that opens the window. -/
theorem emitFrame : Obligations.EmitFrame := by
  intro x s t hexec
  obtain ⟨b, events, hrun, rfl⟩ := exec_next_iff.1 hexec
  obtain ⟨hp, ⟨rfl, rfl, -⟩ | ⟨a, -, -, rfl, rfl⟩⟩ := emitBlock_ok hrun
  · exact ⟨rfl, rfl, fun _ => rfl, rfl, rfl, rfl, .inl ⟨hp, _, rfl⟩⟩
  · exact ⟨rfl, rfl, fun _ => rfl, rfl, rfl, rfl, .inr ⟨rfl, _, _, rfl⟩⟩

/-- Settles O32: reset has neither a count nor a word, and every command advances the clock by the words it outputs. -/
theorem clockCountsEmits : Obligations.ClockCountsEmits :=
  ⟨fun _ _ => clockCountsWords_step, fun _ => reachable_of_invariant (fun _ => rfl) fun _ _ =>
    clockCountsWords_step⟩

/-- Settles O41: `EMIT` appends at most one firing to the trace, another command no event at all. -/
theorem atMostOneFiringPerEmit : Obligations.AtMostOneFiringPerEmit := by
  intro i s t hexec
  obtain ⟨b, events, hrun, rfl⟩ := exec_next_iff.1 hexec
  refine ⟨?_, fun hi => ?_⟩
  · rintro x rfl
    rw [firesOf_append, List.length_append]
    exact Nat.add_le_add_left (firesOf_emitBlock_length_le hrun) _
  · obtain ⟨rfl, -⟩ := runCommand_of_not_emit (commandOf_ne_emit hi) hrun
    rw [List.append_nil]

/-- Settles O47: an `EMIT` runs in the host context and opens the window with its last event; of the other commands `RET`
alone touches the phase. -/
theorem fireWindowProtocol : Obligations.FireWindowProtocol := by
  intro i s t hexec
  obtain ⟨b, events, hrun, rfl⟩ := exec_next_iff.1 hexec
  by_cases hi : ∃ x, i = .emit x
  · obtain ⟨x, rfl⟩ := hi
    obtain ⟨hp, ⟨rfl, -, -⟩ | ⟨a, -, -, rfl, rfl⟩⟩ := emitBlock_ok hrun
    · simp [hp]
    · exact ⟨fun _ _ => ⟨x, a.cb, rfl, by simp⟩, by simp [hp]⟩
  · obtain ⟨-, -, -, hphase⟩ := runCommand_of_not_emit (commandOf_ne_emit (not_exists.1 hi)) hrun
    by_cases hret : i = .ret
    · subst hret
      exact ⟨fun _ hopen => (nomatch hphase.symm.trans hopen), fun _ => iff_of_true hphase rfl⟩
    · rw [if_neg (mt commandOf_eq_ret hret)] at hphase
      refine ⟨fun hidle hopen => ?_, fun hfiring => iff_of_false ?_ hret⟩
      · simp [hphase, hidle] at hopen
      · simp [hphase, hfiring]

/-- Settles O20: with nothing pending or a head not due the poll is quiet, a due head fires, and in a window `EMIT` is
refused; the reset block has nothing pending. -/
theorem emitResult : Obligations.EmitResult := by
  refine ⟨?_, fun x s => ⟨fun hp hempty => ?_, fun a hp hne hread hnot => ?_,
    fun a hp hne hread hdue => ?_, fun hp => ?_⟩⟩
  · refine ⟨_, exec_emit_of_quiet (n := 0) 0 rfl (quietFor_of_empty rfl), ?_, ?_, rfl, rfl⟩
    · rw [emitted_singleton, reset_block, encodeSample_reset_zero]
      rfl
    · rw [emitted_singleton, reset_block, emitWord_acc, encodeSample_reset_zero]
  · rw [exec_emit_of_quiet (n := 0) x hp (quietFor_of_empty hempty), emitted_singleton]
    rfl
  · have hquiet : quietFor 1 s.block := by
      refine quietFor_of_pending (headView_pending_iff.2 ⟨hne, hread⟩) fun j hpos hj => ?_
      obtain rfl := le_antisymm hj hpos
      exact hnot
    rw [exec_emit_of_quiet x hp hquiet, emitted_singleton]
    rfl
  · exact exec_emit_of_due x hp (headView_pending_iff.2 ⟨hne, hread⟩) hdue
  · rw [exec_eq_commit]
    exact commit_refused_iff.2 (emitBlock_of_firing hp)

/-- Settles O24: the return reclaims one pending action, the oldest, and outside a window it is refused. -/
theorem retResult : Obligations.RetResult := by
  refine fun s => ⟨exec_ret_of_firing, fun hp hinv t hexec => ?_, exec_ret_of_idle⟩
  obtain ⟨-, -, hrunning, hwritten, -⟩ := hinv
  rw [exec_ret_of_firing hp] at hexec
  cases hexec
  exact ⟨pendingCount_closeWindow (hrunning hp),
    pendingActions_closeWindow (by decide) (hrunning hp) hwritten⟩

/-- Settles O28: a completed `RET` only closes the window. -/
theorem retFrame : Obligations.RetFrame := by
  intro s t hexec
  obtain ⟨b, events, hrun, rfl⟩ := exec_next_iff.1 hexec
  obtain ⟨-, rfl, rfl⟩ := retBlock_ok hrun
  exact ⟨rfl, rfl, rfl, fun _ => rfl, rfl, rfl, List.append_nil _⟩

/-- Settles O37: each row of the table is a signed 32-bit difference of two literals. -/
theorem dueCases : Obligations.DueCases := by
  unfold Obligations.DueCases
  decide

end Sys2Proof.Proofs
end

section
/-! PROOFS of the statements of 43_waveform_generators.md. The rules they need, each said once: a ramp as an arithmetic
progression, the expansion of a beep over any boundaries, the count forced even, and the exact boundaries and count. -/

namespace Sys2Proof.Proofs

open Sys2Proof.Machine Sys2Proof.Laws

/-! ### Ramps as arithmetic progressions (R84 to R86) -/

section Ramps

/-- The `RAMP_LEN` samples from `first` on, each `step` above the one before. -/
def ramp (first step : Int) : List Int :=
  (List.range Config.rampLen).map fun i : Nat => first + step * (i : Int)

theorem rampInWith_eq_ramp (n : Nat) : rampInWith n = ramp (-32768) n := rfl

theorem rampOutWith_eq_ramp (n : Nat) : rampOutWith n = ramp (-n) (-n) := by
  simp only [rampOutWith, ramp, neg_mul, sub_eq_add_neg]

variable {first step : Int}

@[simp] theorem ramp_length : (ramp first step).length = 2048 := by
  rw [ramp, List.length_map, List.length_range, Config.rampLen]

theorem ramp_getElem {i : Nat} (hi : i < (ramp first step).length) :
    (ramp first step)[i] = first + step * i := by
  simp only [ramp, List.getElem_map, List.getElem_range]

theorem ramp_getD {i : Nat} (hi : i < 2048) : (ramp first step).getD i 0 = first + step * i := by
  have hlen : i < (ramp first step).length := by rwa [ramp_length]
  rw [List.getD_eq_getElem _ _ hlen, ramp_getElem]

theorem ramp_head? : (ramp first step).head? = some first := by
  simp [ramp, List.head?_range]

/-- The step of a ramp is fixed, so it conforms as soon as its samples are legal. -/
theorem conformsToRamp_ramp
    (hlegal : ∀ i : Nat, i < 2048 → -32768 ≤ first + step * i ∧ first + step * i ≤ 32767) :
    conformsToRamp step (ramp first step) := by
  refine ⟨ramp_length, fun i hi => ?_, fun x hx => ?_⟩
  · rw [ramp_length] at hi
    rw [ramp_getD hi, ramp_getD (Nat.lt_of_succ_lt hi), Nat.cast_succ, mul_add_one, add_assoc]
  · obtain ⟨i, hi, rfl⟩ := List.mem_map.1 hx
    exact hlegal i (List.mem_range.1 hi)

theorem ramp_pairwise_le (h : 0 ≤ step) : (ramp first step).Pairwise (· ≤ ·) := by
  refine List.pairwise_map.2 (List.pairwise_lt_range.imp fun hij => ?_)
  gcongr

theorem ramp_pairwise_ge (h : step ≤ 0) : (ramp first step).Pairwise (· ≥ ·) := by
  refine List.pairwise_map.2 (List.pairwise_lt_range.imp fun {i j} hij => ?_)
  exact add_le_add_right (mul_le_mul_of_nonpos_left (Int.ofNat_le.2 hij.le) h) first

/-- A ramp reversed starts at its last sample and takes the opposite step. -/
theorem ramp_reverse : (ramp first step).reverse = ramp (first + step * 2047) (-step) := by
  refine List.ext_getElem (by simp) fun i hi _ => ?_
  have hi' : i ≤ 2047 := by rw [List.length_reverse, ramp_length] at hi; omega
  have hmirror : ((2048 - 1 - i : Nat) : Int) = 2047 - i := by omega
  rw [List.getElem_reverse, ramp_getElem, ramp_getElem, ramp_length, hmirror]
  ring

end Ramps

/-! ### The expansion of a beep, for any boundaries (R92) -/

section Expansion

variable {b : Nat → Nat} {n : Nat} {high : Int}

/-- One more half-period is one more run at the end. -/
theorem beepExpansion_succ (b : Nat → Nat) (n : Nat) (high : Int) :
    beepExpansion b (n + 1) high =
      beepExpansion b n high ++ List.replicate (b (n + 1) - b n) (beepLevel high n) := by
  simp [beepExpansion, List.range_succ]

/-- The runs between non-decreasing boundaries from 0 add up to the last boundary. -/
theorem beepExpansion_length (h0 : b 0 = 0) (hmono : ∀ k < n, b k ≤ b (k + 1)) :
    (beepExpansion b n high).length = b n := by
  induction n with
  | zero => exact h0.symm
  | succ n ih =>
    rw [beepExpansion_succ, List.length_append, List.length_replicate,
      ih fun k hk => hmono k (Nat.lt_succ_of_lt hk), Nat.add_sub_cancel' (hmono n n.lt_succ_self)]

/-- A sample of half-period `k` has that half-period's level. -/
theorem beepExpansion_getD (h0 : b 0 = 0) (hmono : ∀ k < n, b k ≤ b (k + 1)) {k j : Nat} (hk : k < n)
    (hlow : b k ≤ j) (hhigh : j < b (k + 1)) : (beepExpansion b n high).getD j 0 = beepLevel high k := by
  induction n with
  | zero => exact absurd hk k.not_lt_zero
  | succ n ih =>
    have hmono' : ∀ k < n, b k ≤ b (k + 1) := fun k hk => hmono k (Nat.lt_succ_of_lt hk)
    have hmonoOn : MonotoneOn b (Set.Iic (n + 1)) :=
      monotoneOn_of_le_add_one Set.ordConnected_Iic fun k _ _ hk => hmono k hk
    have hlen : (beepExpansion b n high).length = b n := beepExpansion_length h0 hmono'
    rw [beepExpansion_succ]
    rcases Nat.lt_succ_iff_lt_or_eq.1 hk with hk | rfl
    · have hj : j < b n := 
        hhigh.trans_le (hmonoOn (Nat.le_succ_of_le hk) n.le_succ hk)
      rw [List.getD_append _ _ _ _ (hlen.symm ▸ hj), ih hmono' hk]
    · rw [List.getD_append_right _ _ _ _ (hlen.trans_le hlow), hlen]
      exact List.getD_replicate _ (by omega)

/-- The last run, where it is not empty, ends the expansion. -/
theorem beepExpansion_succ_getLast? (h : b n < b (n + 1)) :
    (beepExpansion b (n + 1) high).getLast? = some (beepLevel high n) := by
  rw [beepExpansion_succ, List.getLast?_append, List.getLast?_replicate, if_neg (by omega),
    Option.some_or]

theorem beepLevel_odd (high : Int) {k : Nat} (hk : k % 2 = 1) : beepLevel high k = -32768 := by
  simp [beepLevel, hk]

theorem mem_beepExpansion {x : Int} (hx : x ∈ beepExpansion b n high) : x = high ∨ x = -32768 := by
  obtain ⟨k, -, hk⟩ := List.mem_flatMap.1 hx
  rw [List.eq_of_mem_replicate hk, beepLevel]
  exact ite_eq_or_eq _ _ _

end Expansion

/-! ### The count forced even (R89, R93) -/

section Count

theorem forcedEven_mod_two (n : Nat) : forcedEven n % 2 = 0 := by
  rw [forcedEven]; omega

theorem le_forcedEven (n : Nat) : n ≤ forcedEven n := Nat.le_add_right n _

theorem forcedEven_le (n : Nat) : forcedEven n ≤ n + 1 := by
  rw [forcedEven]; omega

variable {α : Type} [Field α] [LinearOrder α] [IsStrictOrderedRing α] {freq len e : α}

/-- Forcing an admissible count even costs at most one half-period more; a count below zero plays none, which is no
further from the half-periods asked for (R89, R94). -/
theorem abs_plannedCount_sub_lt {p : BeepPlan} (hx : 0 ≤ 2 * freq * len)
    (h : admissibleCount freq len e p.needed) :
    |(plannedCount p : α) - 2 * freq * len| < 2 + e := by
  obtain ⟨hlow, hhigh⟩ := abs_lt.1 h
  have hclip : (p.needed : α) ≤ p.needed.toNat := by exact_mod_cast p.needed.self_le_toNat
  have hle : (p.needed.toNat : α) ≤ plannedCount p := Nat.cast_le.2 (le_forcedEven _)
  have hge : (plannedCount p : α) ≤ p.needed.toNat + 1 := by exact_mod_cast forcedEven_le _
  rw [abs_lt]
  refine ⟨by linarith, ?_⟩
  rcases le_or_gt 0 p.needed with hn | hn
  · have hexact : (p.needed.toNat : α) = p.needed := by exact_mod_cast Int.toNat_of_nonneg hn
    linarith
  · have hzero : plannedCount p = 0 := by rw [plannedCount, Int.toNat_of_nonpos hn.le, forcedEven]
    have hneg : (p.needed : α) < 0 := Int.cast_lt_zero.2 hn
    rw [hzero, Nat.cast_zero]
    linarith

end Count

/-! ### Exact arithmetic (R88, R89, R91) -/

section Exact

variable {α : Type} [Field α] {rate freq len : α}

/-- The half-periods asked for last as long as the duration asked for (R88, R89). -/
theorem asked_mul_halfPeriod [CharZero α] (rate len : α) (hfreq : freq ≠ 0) :
    2 * freq * len * halfPeriod rate freq = len * rate := by
  rw [halfPeriod]
  field_simp

variable [LinearOrder α]

theorem halfPeriod_pos [IsStrictOrderedRing α] (hrate : 0 < rate) (hfreq : 0 < freq) : 0 < halfPeriod rate freq :=
  div_pos hrate (by positivity)

variable [FloorRing α]

theorem beepBoundary_eq_floor (rate freq : α) (k : Nat) :
    beepBoundary rate freq k = ⌊(k : α) * halfPeriod rate freq⌋₊ := Int.floor_toNat _

theorem halfPeriodsNeeded_eq_ceil (freq len : α) : halfPeriodsNeeded freq len = ⌈2 * freq * len⌉₊ :=
  Int.ceil_toNat _

theorem plannedCount_exactPlan (rate freq len : α) :
    plannedCount (exactPlan rate freq len) = forcedEven (halfPeriodsNeeded freq len) := rfl

variable [IsStrictOrderedRing α]

theorem admissibleBoundaries_exact (hh : 0 ≤ halfPeriod rate freq) (n : Nat) :
    admissibleBoundaries (halfPeriod rate freq) n (beepBoundary rate freq) := by
  refine ⟨?_, fun k _ => ?_, fun k _ => ?_⟩
  · rw [beepBoundary_eq_floor, Nat.cast_zero, zero_mul, Nat.floor_zero]
  · rw [beepBoundary_eq_floor, beepBoundary_eq_floor]
    gcongr
    exact k.le_succ
  · rw [beepBoundary_eq_floor, abs_lt]
    have hle := Nat.floor_le (mul_nonneg k.cast_nonneg hh)
    have hlt := Nat.lt_floor_add_one ((k : α) * halfPeriod rate freq)
    constructor <;> linarith

theorem admissibleCount_exact (hx : 0 ≤ 2 * freq * len) :
    admissibleCount freq len 0 (halfPeriodsNeeded freq len) := by
  rw [admissibleCount, halfPeriodsNeeded_eq_ceil, Int.cast_natCast, abs_lt]
  have hle := Nat.le_ceil (2 * freq * len)
  have hlt := Nat.ceil_lt_add_one hx
  constructor <;> linarith

/-- The exact count reaches the half-periods asked for. -/
theorem asked_le_forcedEven (freq len : α) :
    2 * freq * len ≤ forcedEven (halfPeriodsNeeded freq len) := by
  rw [halfPeriodsNeeded_eq_ceil]
  exact (Nat.le_ceil _).trans (Nat.cast_le.2 (le_forcedEven _))

/-- Between neighbouring multiples of `h` the floor rises by `⌊h⌋` or one more (R91). -/
theorem floor_succ_mul_sub {h : α} (hh : 0 ≤ h) (k : Nat) :
    ⌊((k + 1 : Nat) : α) * h⌋₊ - ⌊(k : α) * h⌋₊ = ⌊h⌋₊ ∨
      ⌊((k + 1 : Nat) : α) * h⌋₊ - ⌊(k : α) * h⌋₊ = ⌊h⌋₊ + 1 := by
  have hkh : 0 ≤ (k : α) * h := mul_nonneg k.cast_nonneg hh
  have hsum : ((k + 1 : Nat) : α) * h = k * h + h := by push_cast; ring
  have hlow : ⌊(k : α) * h⌋₊ + ⌊h⌋₊ ≤ ⌊(k : α) * h + h⌋₊ := by
    refine Nat.le_floor ?_
    rw [Nat.cast_add]
    exact add_le_add (Nat.floor_le hkh) (Nat.floor_le hh)
  have hhigh : ⌊(k : α) * h + h⌋₊ < ⌊(k : α) * h⌋₊ + ⌊h⌋₊ + 2 := by
    rw [Nat.floor_lt (by positivity)]
    have := Nat.lt_floor_add_one ((k : α) * h)
    have := Nat.lt_floor_add_one h
    push_cast
    linarith
  rw [hsum]
  omega

end Exact

/-! ### The beep's samples and their playing (R87, R96) -/

section Beep

variable {α : Type} [Field α] [LinearOrder α] [FloorRing α] {freq len volume : α}

theorem beepSamplesBy_of_domain (plan : α → α → BeepPlan) (h : beepDomain freq len volume) :
    beepSamplesBy plan (.number freq) (.number len) (.number volume) =
      .ok (beepExpansion (plan freq len).boundary (plannedCount (plan freq len)) (beepHigh volume)) :=
  if_pos h

theorem beepSamplesBy_of_not_domain (plan : α → α → BeepPlan) (h : ¬ beepDomain freq len volume) :
    beepSamplesBy plan (.number freq) (.number len) (.number volume) = .error .beepDomain :=
  if_neg h

theorem beepSamplesBy_of_nan (plan : α → α → BeepPlan) {x y z : BeepOperand α}
    (h : x = .nan ∨ y = .nan ∨ z = .nan) : beepSamplesBy plan x y z = .error .beepDomain := by
  rcases h with rfl | rfl | rfl
  · rfl
  · cases x <;> rfl
  · cases x with
    | nan => rfl
    | number f => cases y <;> rfl

variable {plan : α → α → BeepPlan} {x y z : BeepOperand α}

theorem playBeepBy_of_ok {xs : List Int} (h : beepSamplesBy plan x y z = .ok xs) (handler : Handler)
    (s : State) : playBeepBy plan handler x y z s = playExpansion handler xs s := by
  rw [playBeepBy, h]

theorem playBeepBy_of_error {r : Refusal} (h : beepSamplesBy plan x y z = .error r)
    (handler : Handler) (s : State) : playBeepBy plan handler x y z s = .refused r := by
  rw [playBeepBy, h]

/-- An expansion played from the host context advances the clock by its length (R96). -/
theorem playExpansion_completes (h : Handler) (xs : List Int) {s : State} (hinv : blockInv s.block)
    (hp : s.block.phase = .idle) :
    ∃ t, playExpansion h xs s = .next t ∧ t.block.phase = .idle ∧
      t.block.sclk = s.block.sclk + BitVec.ofNat 32 xs.length := by
  obtain ⟨t, hplay, -, hp', hsclk, -⟩ := playingCompletes h (xs.map asSample) s hinv hp
  rw [List.length_map] at hsclk
  exact ⟨t, hplay, hp', hsclk⟩

end Beep

/-! ### The statements -/

/-- Settles O53: both ramps are arithmetic progressions, of a step that keeps their 2048 samples legal. -/
theorem rampsConform : Obligations.RampsConform := by
  refine ⟨fun n hn => ?_, fun n hn => ?_⟩
  · rw [rampInWith_eq_ramp]
    refine ⟨conformsToRamp_ramp fun i hi => ?_, ramp_head?, ramp_pairwise_le (Int.natCast_nonneg n)⟩
    have hrise : n * i ≤ 32 * 2047 := Nat.mul_le_mul (by omega) (by omega)
    have hnonneg : (0 : Int) ≤ n * i := by positivity
    zify at hrise
    constructor <;> linarith
  · rw [rampOutWith_eq_ramp]
    refine ⟨conformsToRamp_ramp fun i hi => ?_, ramp_pairwise_ge (by omega)⟩
    have hfall : n * (i + 1) ≤ 16 * 2048 := Nat.mul_le_mul hn hi
    have hnonneg : (0 : Int) ≤ n * (i + 1) := by positivity
    zify at hfall
    constructor <;> linarith

/-- Settles O54: the count is the half-periods asked for, rounded up and forced even; the lengths are those of any
expansion, and a run is a difference of floors of neighbouring multiples. -/
theorem beepDuration : Obligations.BeepDuration := by
  intro α _ _ _ _ rate freq len volume hrate hdomain
  have ⟨hfreq, hlen, _⟩ := hdomain
  have hh := halfPeriod_pos hrate hfreq
  have hasked := asked_mul_halfPeriod rate len hfreq.ne'
  have hplan := abs_plannedCount_sub_lt (p := exactPlan rate freq len) (by positivity)
    (admissibleCount_exact (by positivity))
  rw [plannedCount_exactPlan, add_zero] at hplan
  obtain ⟨h0, hmono, -⟩ :=
    admissibleBoundaries_exact hh.le (forcedEven (halfPeriodsNeeded freq len))
  refine ⟨forcedEven_mod_two _, ?_, ?_, fun xs hxs => ?_, fun k => ?_⟩
  · rw [← hasked]
    exact mul_le_mul_of_nonneg_right (asked_le_forcedEven freq len) hh.le
  · rw [← hasked, ← add_mul]
    exact mul_lt_mul_of_pos_right (sub_lt_iff_lt_add'.1 (abs_lt.1 hplan).2) hh
  · rw [beepSamples, beepSamplesBy_of_domain _ hdomain] at hxs
    cases hxs
    exact beepExpansion_length h0 hmono
  · rw [beepBoundary_eq_floor, beepBoundary_eq_floor, Int.floor_toNat]
    exact floor_succ_mul_sub hh.le k

/-- Settles O55: the floor of `volume * 65535`, which lies between 0 and 65535. -/
theorem beepHighLevel : Obligations.BeepHighLevel := by
  intro α _ _ _ _
  have hhigh : ∀ volume : α, beepHigh volume = -32768 + ⌊volume * 65535⌋ := fun volume => by
    norm_num [beepHigh]
  refine ⟨?_, ?_, fun volume h0 h1 => ?_⟩
  · rw [hhigh, one_mul, Int.floor_ofNat]
    rfl
  · rw [hhigh, zero_mul, Int.floor_zero]
    rfl
  · have hlow : 0 ≤ ⌊volume * 65535⌋ := Int.floor_nonneg.2 (by positivity)
    have hup : ⌊volume * 65535⌋ ≤ 65535 := Int.floor_le_iff.2 (by push_cast; linarith)
    have hle := Int.floor_le (volume * 65535)
    have hlt := Int.lt_floor_add_one (volume * 65535)
    rw [hhigh]
    push_cast
    exact ⟨by omega, by omega, by linarith, by linarith⟩

/-- Settles O56: the expansion's runs end to end, the last one of an odd half-period. -/
theorem beepLevelsAlternate : Obligations.BeepLevelsAlternate := by
  intro b n high h0 hmono
  refine ⟨beepExpansion_length h0 hmono, fun k hk j => beepExpansion_getD h0 hmono hk,
    fun heven hpos hlast => ?_⟩
  obtain ⟨m, rfl⟩ := Nat.exists_eq_add_one_of_ne_zero hpos.ne'
  rw [Nat.add_sub_cancel] at hlast
  rw [beepExpansion_succ_getLast? hlast, beepLevel_odd high (by omega)]

/-- Settles O57: floors are within one of the multiples, the ceiling is within one of the count asked for. -/
theorem exactBeepIsAdmissible : Obligations.ExactBeepIsAdmissible := by
  intro α _ _ _ _ rate freq len volume n hrate ⟨hfreq, hlen, _⟩
  have hh := (halfPeriod_pos hrate hfreq).le
  have hcount : admissibleCount freq len 0 (halfPeriodsNeeded freq len) :=
    admissibleCount_exact (by positivity)
  exact ⟨admissibleBoundaries_exact hh n, hcount, admissibleBoundaries_exact hh _, hcount⟩

/-- Settles O60: the error of the count is scaled by the half-period and the last boundary adds less than one sample; the
playing is that of any expansion. -/
theorem admissibleBeepPlays : Obligations.AdmissibleBeepPlays := by
  intro α _ _ _ _ plan rate freq len volume e hrate hdomain ⟨⟨h0, hmono, hnear⟩, hcount⟩ n total
  have ⟨hfreq, hlen, _⟩ := hdomain
  have hh := halfPeriod_pos hrate hfreq
  have hN : |(n : α) - 2 * freq * len| < 2 + e := abs_plannedCount_sub_lt (by positivity) hcount
  have hsamples := beepSamplesBy_of_domain plan hdomain
  have hlength := beepExpansion_length (high := beepHigh volume) h0 hmono
  refine ⟨forcedEven_mod_two _, hN, ?_,
    ⟨_, hsamples, hlength, fun x => mem_beepExpansion⟩, fun h s hinv hp => ?_⟩
  · have hscaled : |(n : α) * halfPeriod rate freq - len * rate| < (2 + e) * halfPeriod rate freq := by
      rw [← asked_mul_halfPeriod rate len hfreq.ne', ← sub_mul, abs_mul, abs_of_pos hh]
      exact mul_lt_mul_of_pos_right hN hh
    exact (abs_sub_le _ _ _).trans_lt (add_lt_add (hnear n le_rfl) hscaled)
  · rw [playBeepBy_of_ok hsamples]
    obtain ⟨t, hplay, hp', hsclk⟩ := playExpansion_completes h _ hinv hp
    exact ⟨t, hplay, hp', by rw [hsclk, hlength]⟩

/-- Settles O51: `RAMP_IN` is the progression from the rail by 16. -/
theorem rampInSamples : Obligations.RampInSamples :=
  ⟨ramp_length, fun _ => ramp_getD⟩

/-- Settles O52: `RAMP_OUT` is the progression from -16 by -16, which is the other one reversed. -/
theorem rampOutSamples : Obligations.RampOutSamples := by
  have hin : rampIn = ramp (-32768) 16 := rfl
  have hout : rampOut = ramp (-16) (-16) := rampOutWith_eq_ramp 16
  rw [Obligations.RampOutSamples, hin, hout, ramp_reverse]
  refine ⟨ramp_length, fun i hi => ?_, by norm_num⟩
  rw [ramp_getD hi, neg_mul, sub_eq_add_neg]

/-- Settles O58: the domain alone decides between the expansion and the refusal, whatever plan computes the beep. -/
theorem beepDomainRefusal : Obligations.BeepDomainRefusal := by
  intro α _ _ _ plan h rate freq len volume s
  refine ⟨fun x y z hnan => ?_, fun hout => ?_, fun hin => ?_⟩
  · exact ⟨playBeepBy_of_error (beepSamplesBy_of_nan _ hnan) h s,
      playBeepBy_of_error (beepSamplesBy_of_nan _ hnan) h s⟩
  · exact ⟨playBeepBy_of_error (beepSamplesBy_of_not_domain _ hout) h s,
      playBeepBy_of_error (beepSamplesBy_of_not_domain _ hout) h s⟩
  · exact ⟨playBeepBy_of_ok (beepSamplesBy_of_domain _ hin) h s,
      playBeepBy_of_ok (beepSamplesBy_of_domain _ hin) h s⟩

end Sys2Proof.Proofs
end

section
/-! PROOFS of the statements of 60_exceptions.md: the table of contexts, read off the rules for each command, and the
callback as a whole. -/

namespace Sys2Proof.Proofs

open Sys2Proof.Machine Sys2Proof.Laws

/-! ### `EMIT` by context (R78, R110) -/

section Contexts

variable {s : State}

theorem exists_exec_emit (x : Sample) (hp : s.block.phase = .idle) (hinv : blockInv s.block) :
    ∃ t, exec (.emit x) s = .next t := by
  obtain ⟨b, events, hemit⟩ := exists_emitBlock_ok x hinv hp
  exact ⟨_, exec_next_iff.2 ⟨b, events, hemit, rfl⟩⟩

theorem exec_emit_of_firing (x : Sample) (hp : s.block.phase = .firing) :
    exec (.emit x) s = .refused .emitInFireWindow := by
  rw [exec_eq_commit]
  exact commit_refused_iff.2 (emitBlock_of_firing hp)

end Contexts

/-! ### The statements -/

/-- Settles O25: a scheduling command is a request, which always completes; `EMIT` and `RET` complete in one context each
and are refused in the other. -/
theorem contextTable : Obligations.ContextTable := by
  intro i s
  cases i with
  | emit x =>
    cases hp : s.block.phase with
    | idle => exact ⟨fun _ => exists_exec_emit x hp, nofun⟩
    | firing => exact ⟨nofun, fun _ => exec_emit_of_firing x hp⟩
  | schedAbs t cb => exact ⟨fun _ _ => ⟨_, exec_requestCommand (.absolute t cb) s⟩, nofun⟩
  | schedRel d cb => exact ⟨fun _ _ => ⟨_, exec_requestCommand (.relative d cb) s⟩, nofun⟩
  | ret =>
    cases hp : s.block.phase with
    | idle => exact ⟨nofun, fun _ => exec_ret_of_idle hp⟩
    | firing => exact ⟨fun _ _ => ⟨_, exec_ret_of_firing hp⟩, nofun⟩

/-- Settles O48: the requests' offers keep the invariant and reach only the queue's input side, and the return reclaims
the head. -/
theorem callbackAlwaysReturns : Obligations.CallbackAlwaysReturns := by
  intro qs s hinv hp
  obtain ⟨hacc, hsclk, hqout, hphase⟩ :=
    foldl_offered_frame (qs.map (requestAction s.block.sclk)) s.block
  refine ⟨_, runCommands_callback qs hp, rfl, rfl, hacc, hsclk, congrArg increment hqout, ?_⟩
  exact blockInv_closeWindow (by decide) (blockInv_foldl_offered (by decide) _ hinv) (hphase.trans hp)

end Sys2Proof.Proofs
end
